-- ==== Sys2Proof/Word.lean ====
section
/-! DEFINITION. The word types of the FPK (spec/00_scope.md R8, R9, R10). -/

namespace Sys2Proof

/-- The host port's 32-bit word (R8). -/
abbrev Word := BitVec 32

/-- A byte: a data byte, a length register's count, a byte offset of the 256-byte window (R8). -/
abbrev Byte := BitVec 8

/-- One bit, 0 (`false`) or 1 (`true`) (R9). -/
abbrev Bit := Bool

/-- An ordered bit sequence; element 0, the list's head, comes first in the frame stream (R10). -/
abbrev BitSeq := List Bit

/-- The checksum's width, `CRC_WIDTH` = 15 (R6). -/
abbrev Crc := BitVec 15

end Sys2Proof
end

