-- ==== Sys2Proof/Syntax.lean ====
section
/-! DEFINITION. The instructions of spec/opcode_table.json, the two encoded forms (spec/30_encoding.md R70), and
the register names of the window (spec/10_state.md R23). -/

namespace Sys2Proof

/-- One constructor per row of spec/opcode_table.json.

A CMD32 row (R71) carries bits [31:4] of its command word, which the machine ignores (R72), so that no bit of an
encoding is lost. A HAW41 row carries the offset and the data field; a read ignores its data field (R70). -/
inductive Instr where
  | build (ign : BitVec 28)
  | checksum (ign : BitVec 28)
  | serialize (ign : BitVec 28)
  | clear (ign : BitVec 28)
  | rsvd0 (ign : BitVec 28)
  | rsvd5 (ign : BitVec 28)
  | rsvd6 (ign : BitVec 28)
  | rsvd7 (ign : BitVec 28)
  | rsvd8 (ign : BitVec 28)
  | rsvd9 (ign : BitVec 28)
  | rsvdA (ign : BitVec 28)
  | rsvdB (ign : BitVec 28)
  | rsvdC (ign : BitVec 28)
  | rsvdD (ign : BitVec 28)
  | rsvdE (ign : BitVec 28)
  | rsvdF (ign : BitVec 28)
  | wr (off : Byte) (data : Word)
  | rd (off : Byte) (ign : Word)
deriving DecidableEq, Repr

/-- The two encoded forms of R70, and no others. -/
inductive HostWord where
  /-- CMD32: the 32-bit value the host writes to CMD. -/
  | cmd32 (w : Word)
  /-- HAW41: the 41-bit record of one 32-bit host access. -/
  | haw41 (w : BitVec 41)
deriving DecidableEq, Repr

/-- The registers of the window, by the names of R23. -/
inductive Reg where
  | cmd
  | status
  | variantIn
  | arbLenIn
  | arbIn
  | cmdLenIn
  | cmdIn
  | dataLenIn
  | dataIn (k : Fin 8)
  | frameVariant
  | frameArb
  | frameCcf
  | frameData (k : Fin 8)
  | crc
  | serLen
  | serW (j : Fin 4)
deriving DecidableEq, Repr

end Sys2Proof
end

