-- ==== Sys2Proof/WellFormed.lean ====
section
/-! DEFINITION. Well-formed instructions: what the assembler of spec/30_encoding.md R76 writes. The machine does not
ask for it: "a decoder takes every 32-bit CMD value and every 41-bit HAW41 value" (R70), so every instruction, well
formed or not, decodes, encodes and runs (log 9). -/

namespace Sys2Proof

/-- Bits [31:4] of a command word: "any value; has no effect; software should write 0" (R70). -/
def ignoredBitsZero (ign : BitVec 28) : Bool := ign == 0

/-- A read's data field: "for a read, ignored (encode 0)" (R70). -/
def readDataZero (ign : Word) : Bool := ign == 0

/-- The offset is that of a register named in spec/10_state.md R23, the only offsets R76's `WR <reg>` and
`RD <reg>` can name: a multiple of 4, not the reserved 0x4C, below the reserved 0x88. -/
def namedOffset (off : Byte) : Bool :=
  off.toNat % 4 == 0 && off.toNat != 0x4C && decide (off.toNat < 0x88)

/-- The instruction is one the assembler of R76 can write. -/
def Instr.wellFormed : Instr → Bool
  | .build ign => ignoredBitsZero ign
  | .checksum ign => ignoredBitsZero ign
  | .serialize ign => ignoredBitsZero ign
  | .clear ign => ignoredBitsZero ign
  | .rsvd0 ign => ignoredBitsZero ign
  | .rsvd5 ign => ignoredBitsZero ign
  | .rsvd6 ign => ignoredBitsZero ign
  | .rsvd7 ign => ignoredBitsZero ign
  | .rsvd8 ign => ignoredBitsZero ign
  | .rsvd9 ign => ignoredBitsZero ign
  | .rsvdA ign => ignoredBitsZero ign
  | .rsvdB ign => ignoredBitsZero ign
  | .rsvdC ign => ignoredBitsZero ign
  | .rsvdD ign => ignoredBitsZero ign
  | .rsvdE ign => ignoredBitsZero ign
  | .rsvdF ign => ignoredBitsZero ign
  | .wr off _ => namedOffset off
  | .rd off ign => namedOffset off && readDataZero ign

end Sys2Proof
end

