-- ==== Sys2Proof/Decode.lean ====
section
/-! DEFINITION. The decoder and the encoder of the two encoded forms (spec/30_encoding.md R70, R71). -/

namespace Sys2Proof

/-- OP, bits [3:0] of the command word (R70). -/
def opField (w : Word) : BitVec 4 := w.extractLsb' 0 4

/-- The ignored bits [31:4] of the command word (R70). -/
def ignField (w : Word) : BitVec 28 := w.extractLsb' 4 28

/-- The opcode map of R71. OP has 4 bits, so the last arm is OP = 0xF alone. -/
def decodeCommand (w : Word) : Instr :=
  match (opField w).toNat with
  | 0x0 => .rsvd0 (ignField w)
  | 0x1 => .build (ignField w)
  | 0x2 => .checksum (ignField w)
  | 0x3 => .serialize (ignField w)
  | 0x4 => .clear (ignField w)
  | 0x5 => .rsvd5 (ignField w)
  | 0x6 => .rsvd6 (ignField w)
  | 0x7 => .rsvd7 (ignField w)
  | 0x8 => .rsvd8 (ignField w)
  | 0x9 => .rsvd9 (ignField w)
  | 0xA => .rsvdA (ignField w)
  | 0xB => .rsvdB (ignField w)
  | 0xC => .rsvdC (ignField w)
  | 0xD => .rsvdD (ignField w)
  | 0xE => .rsvdE (ignField w)
  | _ => .rsvdF (ignField w)

/-- W, bit [40] of the host access word (R70): 1 is a write. -/
def hawWrite (w : BitVec 41) : Bit := w.getLsbD 40

/-- OFF, bits [39:32] of the host access word (R70). -/
def hawOff (w : BitVec 41) : Byte := w.extractLsb' 32 8

/-- DATA, bits [31:0] of the host access word (R70). -/
def hawData (w : BitVec 41) : Word := w.extractLsb' 0 32

/-- The host access word (R70). A write of CMD is still the row WR: what it performs is said by its meaning (log 8). -/
def decodeAccess (w : BitVec 41) : Instr :=
  if hawWrite w then .wr (hawOff w) (hawData w) else .rd (hawOff w) (hawData w)

/-- "A decoder takes every 32-bit CMD value and every 41-bit HAW41 value" (R70). -/
def decode : HostWord → Instr
  | .cmd32 w => decodeCommand w
  | .haw41 w => decodeAccess w

/-- Why a numbered word is no encoded form. -/
inductive DecodeError where
  /-- More bits than the longest form (41 bits, 48 in whole bytes) has. -/
  | noSuchForm (nbits : Nat)
  /-- A bit is set above the form's 32 or 41 bits. -/
  | bitsAboveForm (nbits w : Nat)
deriving DecidableEq, Repr

/-- The encoded form a numbered word stands for: up to 32 bits a CMD32, up to 48 bits (41 in whole bytes) a HAW41
(log 11). Anything else is refused by name: R70 has "two encoded forms and no others". -/
def hostWord (nbits w : Nat) : Except DecodeError HostWord :=
  if nbits ≤ 32 then
    if w < 2 ^ 32 then .ok (.cmd32 (BitVec.ofNat 32 w)) else .error (.bitsAboveForm nbits w)
  else if nbits ≤ 48 then
    if w < 2 ^ 41 then .ok (.haw41 (BitVec.ofNat 41 w)) else .error (.bitsAboveForm nbits w)
  else .error (.noSuchForm nbits)

/-- The instruction the decoder reads from a word numbered as spec/opcode_table.json numbers it. -/
def decodeTableWord (nbits w : Nat) : Option Instr :=
  match hostWord nbits w with
  | .ok h => some (decode h)
  | .error _ => none

/-- A command word from OP and the ignored bits (R70). -/
def commandWord (op : BitVec 4) (ign : BitVec 28) : Word := ign ++ op

/-- A host access word from W, OFF and DATA (R70). -/
def accessWord (wbit : BitVec 1) (off : Byte) (data : Word) : BitVec 41 := (wbit ++ off ++ data : BitVec (1 + 8 + 32))

/-- The encoder, from the tables of R70 and R71. -/
def encode : Instr → HostWord
  | .build ign => .cmd32 (commandWord 0x1 ign)
  | .checksum ign => .cmd32 (commandWord 0x2 ign)
  | .serialize ign => .cmd32 (commandWord 0x3 ign)
  | .clear ign => .cmd32 (commandWord 0x4 ign)
  | .rsvd0 ign => .cmd32 (commandWord 0x0 ign)
  | .rsvd5 ign => .cmd32 (commandWord 0x5 ign)
  | .rsvd6 ign => .cmd32 (commandWord 0x6 ign)
  | .rsvd7 ign => .cmd32 (commandWord 0x7 ign)
  | .rsvd8 ign => .cmd32 (commandWord 0x8 ign)
  | .rsvd9 ign => .cmd32 (commandWord 0x9 ign)
  | .rsvdA ign => .cmd32 (commandWord 0xA ign)
  | .rsvdB ign => .cmd32 (commandWord 0xB ign)
  | .rsvdC ign => .cmd32 (commandWord 0xC ign)
  | .rsvdD ign => .cmd32 (commandWord 0xD ign)
  | .rsvdE ign => .cmd32 (commandWord 0xE ign)
  | .rsvdF ign => .cmd32 (commandWord 0xF ign)
  | .wr off data => .haw41 (accessWord 1 off data)
  | .rd off ign => .haw41 (accessWord 0 off ign)

end Sys2Proof
end

