-- ==== Sys2Proof/Config.lean ====
section
/-! DEFINITION. The parameters of the FPK (spec/00_scope.md R7) and the fixed widths of the source (R6). -/

namespace Sys2Proof

/-- The parameters the model takes (R7). They are fixed for a machine: no instruction writes them.
Log 3 says why the state carries them. -/
structure Config where
  /-- `CRC_POLY`, the x^15 term implicit. -/
  crcPoly : Crc
  /-- `CRC_INIT`. -/
  crcInit : Crc
  /-- `ACK_SLOT_BIT`. -/
  ackSlotBit : Bit
deriving DecidableEq, Repr

/-- The defaults of R7, which every rule and every test vector of the spec uses. -/
def Config.fpk : Config := { crcPoly := 0x4599, crcInit := 0x0000, ackSlotBit := true }

/-- `ARB_LEN_SHORT` (R6). -/
def arbLenShort : Nat := 11

/-- `ARB_LEN_EXT` (R6; spec/90_conflicts.md C3 keeps the source's 26). -/
def arbLenExt : Nat := 26

/-- `CMD_LEN` (R6). -/
def cmdLen : Nat := 4

/-- `CCF_LEN` (R6). -/
def ccfLen : Nat := 6

/-- `DATA_BYTES` (R6). -/
def dataBytes : Nat := 8

/-- `CRC_WIDTH` (R6). -/
def crcWidth : Nat := 15

/-- `EOF_LEN` (R6). -/
def eofLen : Nat := 7

end Sys2Proof
end

