-- ==== Sys2Proof/Machine/State.lean ====
section
/-! DEFINITION. The state of the FPK (spec/10_state.md R20, R22, R45) with the host's side of it
(spec/70_reset_and_hazards.md R208), the fault of a refused host access, and reset. -/

namespace Sys2Proof.Machine

/-- The input staging area `in` the host writes (R20, R27 to R33). -/
structure Inputs where
  /-- 0 = SHORT, 1 = EXTENDED. -/
  variant : Bit
  /-- Number of arbitration bits supplied. -/
  arbLen : Byte
  /-- Arbitration bits, right-aligned. -/
  arb : Word
  /-- Number of command bits supplied. -/
  cmdLen : Byte
  /-- Command bits, right-aligned. -/
  cmd : Byte
  /-- Number of data bytes supplied. -/
  dataLen : Byte
  /-- Data bytes 0 to 7. -/
  data : Vector Byte 8
deriving DecidableEq, Repr

/-- A frame (R22). The lengths it must have are the predicate `Frame.Wf` of Sys2Proof/Safety.lean. -/
structure Frame where
  variant : Bit
  arb : BitSeq
  /-- The complete command field: extension bit, reserved bit 0, the 4 command bits. -/
  ccf : BitSeq
  data : Vector Byte 8
deriving DecidableEq, Repr

/-- `ErrCode` (R20; spec/60_exceptions.md R181). -/
inductive ErrCode where
  | none
  | fieldLength
  | noFrame
  | illegalOp
deriving DecidableEq, Repr

/-- `ErrField` (R20; spec/60_exceptions.md R182). -/
inductive ErrField where
  | none
  | arbitration
  | command
  | data
deriving DecidableEq, Repr

/-- The outcome of the most recent operation (R20, R26). -/
structure Status where
  code : ErrCode
  field : ErrField
  expected : Byte
  actual : Byte
deriving DecidableEq, Repr

/-- One access at the host port (spec/20_memory.md R54; spec/60_exceptions.md R185). A `size` other than 4 has no
HAW41 form (spec/30_encoding.md R70). For a read, `data` is ignored. -/
structure Access where
  write : Bool
  /-- The size of the access in bytes. -/
  size : Nat
  off : Byte
  data : Word
deriving DecidableEq, Repr

/-- What can reach the FPK from outside, one thing at a time (logs 1, 4, 5). -/
inductive HostInput where
  /-- An encoded word: a HAW41 access, or a command word, which the host writes to CMD (R70). -/
  | word (w : HostWord)
  /-- An access given by its size and offset, of any size. -/
  | access (a : Access)
  /-- The reset input, asserted between accesses (spec/70_reset_and_hazards.md R200). -/
  | reset
deriving DecidableEq, Repr

/-- The whole state. The first five fields are the record of R20. -/
structure State where
  inp : Inputs
  frame : Option Frame
  crc : Option Crc
  ser : Option BitSeq
  status : Status
  /-- The parameters of spec/00_scope.md R7; nothing writes them (log 3). -/
  config : Config
  /-- The host's inputs still to come, the next one first (log 1). -/
  program : List HostInput
  /-- The values the program's reads returned, oldest first (spec/30_encoding.md R76; log 6). -/
  reads : List Word
deriving DecidableEq, Repr

/-- Why a step faults. -/
inductive Fault where
  /-- Raised by `portAccess`, and so by the meanings of WR and RD: a host access whose size is not 4 bytes or whose
  offset is not a multiple of 4 (spec/20_memory.md R54; spec/60_exceptions.md R185, "a fault outcome of the host's
  step that names the access"). Safe: the spec names this stop, and no FPK state changes. -/
  | busAccess (write : Bool) (size : Nat) (off : Byte)
deriving DecidableEq, Repr

/-- Why a step is refused. -/
inductive Refusal where
  /-- Raised by `exec` for an instruction that has no meaning yet; no arm raises it now. Safe: the machine stops. -/
  | notModelled (mnemonic : String)
deriving DecidableEq, Repr

/-- `in` at reset: every field 0 (R45). -/
def Inputs.reset : Inputs :=
  { variant := false, arbLen := 0, arb := 0, cmdLen := 0, cmd := 0, dataLen := 0, data := Vector.replicate 8 0 }

/-- `{NONE, NONE, 0, 0}` (R45; spec/60_exceptions.md R184). -/
def Status.clear : Status := { code := .none, field := .none, expected := 0, actual := 0 }

/-- `S_reset` (R45), with the default parameters (log 3), no program loaded (log 1) and no read made (log 6). -/
def State.reset : State :=
  { inp := Inputs.reset, frame := none, crc := none, ser := none, status := Status.clear
    config := Config.fpk, program := [], reads := [] }

end Sys2Proof.Machine
end

