-- ==== Sys2Proof/Machine/Bits.lean ====
section
/-! DEFINITION. Bit sequences (spec/00_scope.md R10). -/

namespace Sys2Proof.Machine

/-- `seq_msb(v, L)` = `[v[L-1], v[L-2], ..., v[0]]` (R10). -/
def seqMsb {n : Nat} (v : BitVec n) : Nat → BitSeq
  | 0 => []
  | L + 1 => v.getLsbD L :: seqMsb v L

/-- `val(s)` = sum over i of `s[i] * 2^(len(s)-1-i)` (R10). -/
def val : BitSeq → Nat
  | [] => 0
  | b :: s => b.toNat * 2 ^ s.length + val s

/-- `ones(n)` (R10). -/
def ones (n : Nat) : BitSeq := List.replicate n true

/-- `bytes_bits(d)`: each byte most significant bit first, byte 0 first (R10; spec/41_checksum.md R131). -/
def bytesBits (d : List Byte) : BitSeq := d.flatMap fun b => seqMsb b 8

/-- `zext_32` of one bit (R9). -/
def bitWord (b : Bit) : Word := if b then 1 else 0

/-- `zext_32(val(s))`, a sequence of at most 32 bits shown right-aligned (spec/10_state.md R35, R36). -/
def seqWord (s : BitSeq) : Word := BitVec.ofNat 32 (val s)

/-- SER_W_j: bit `31 - m` is `s[32j + m]`, and 0 past the end of `s` (spec/10_state.md R40). -/
def serWord (s : BitSeq) (j : Nat) : Word := seqWord ((List.range 32).map fun m => s.getD (32 * j + m) false)

end Sys2Proof.Machine
end

