-- ==== Sys2Proof/Machine/Flags.lean ====
section
/-! DEFINITION. STATUS: the FPK's only flags (spec/10_state.md R25, R43), and the error numbers
(spec/60_exceptions.md R181, R182). -/

namespace Sys2Proof.Machine

/-- ERR_CODE, 4 bits (R181). -/
def errCodeBits : ErrCode → BitVec 4
  | .none => 0
  | .fieldLength => 1
  | .noFrame => 2
  | .illegalOp => 3

/-- ERR_FIELD, 2 bits (R182). -/
def errFieldBits : ErrField → BitVec 2
  | .none => 0
  | .arbitration => 1
  | .command => 2
  | .data => 3

/-- FRAME_VALID (R25). -/
def frameValid (s : State) : Bit := s.frame.isSome

/-- CRC_VALID (R25). -/
def crcValid (s : State) : Bit := s.crc.isSome

/-- SER_VALID (R25). -/
def serValid (s : State) : Bit := s.ser.isSome

/-- ERR (R25). -/
def errFlag (s : State) : Bit := decide (s.status.code ≠ .none)

/-- `x[STATUS]`, as R25 writes it; bits [15:10] are 0. -/
def statusWord (s : State) : Word :=
  (s.status.actual.setWidth 32 <<< 24) ||| (s.status.expected.setWidth 32 <<< 16)
    ||| ((errFieldBits s.status.field).setWidth 32 <<< 8) ||| ((errCodeBits s.status.code).setWidth 32 <<< 4)
    ||| (bitWord (errFlag s) <<< 3) ||| (bitWord (serValid s) <<< 2) ||| (bitWord (crcValid s) <<< 1)
    ||| bitWord (frameValid s)

end Sys2Proof.Machine
end

