-- ==== Sys2Proof/Machine/Operands.lean ====
section
/-! DEFINITION. Operand assembly from the staging registers (spec/30_encoding.md R73) and the table of window offsets
(spec/10_state.md R23). -/

namespace Sys2Proof.Machine

/-- `EA(v)`, the expected arbitration length (spec/40_build.md R101). -/
def expectedArbLen (v : Bit) : Nat := if v then arbLenExt else arbLenShort

/-- The arbitration sequence of length `L`: `seq_msb(in.arb[L-1:0], L)` (R73; spec/10_state.md R29). Bits `L` and
above are not read (spec/40_build.md R109). -/
def arbitrationSeq (i : Inputs) (L : Nat) : BitSeq := seqMsb i.arb L

/-- The command sequence `seq_msb(in.cmd[3:0], 4)` (R73; spec/10_state.md R31). -/
def commandSeq (i : Inputs) : BitSeq := seqMsb i.cmd cmdLen

/-- The complete command field `[v, 0] ++ cmd` (spec/40_build.md R103). -/
def completeCommandField (i : Inputs) : BitSeq := [i.variant, false] ++ commandSeq i

/-- The register at a word slot of the window, `none` for a reserved offset: the table of spec/10_state.md R23, by
slot number (offset divided by 4). -/
def regAtSlot : Nat → Option Reg
  | 0 => some .cmd
  | 1 => some .status
  | 2 => some .variantIn
  | 3 => some .arbLenIn
  | 4 => some .arbIn
  | 5 => some .cmdLenIn
  | 6 => some .cmdIn
  | 7 => some .dataLenIn
  | 8 => some (.dataIn 0)
  | 9 => some (.dataIn 1)
  | 10 => some (.dataIn 2)
  | 11 => some (.dataIn 3)
  | 12 => some (.dataIn 4)
  | 13 => some (.dataIn 5)
  | 14 => some (.dataIn 6)
  | 15 => some (.dataIn 7)
  | 16 => some .frameVariant
  | 17 => some .frameArb
  | 18 => some .frameCcf
  | 20 => some (.frameData 0)
  | 21 => some (.frameData 1)
  | 22 => some (.frameData 2)
  | 23 => some (.frameData 3)
  | 24 => some (.frameData 4)
  | 25 => some (.frameData 5)
  | 26 => some (.frameData 6)
  | 27 => some (.frameData 7)
  | 28 => some .crc
  | 29 => some .serLen
  | 30 => some (.serW 0)
  | 31 => some (.serW 1)
  | 32 => some (.serW 2)
  | 33 => some (.serW 3)
  | _ => none

/-- The register at a byte offset that is a multiple of 4 (spec/10_state.md R23, R41). -/
def regAt (off : Byte) : Option Reg := regAtSlot (off.toNat / 4)

/-- `offset(reg)`, the offset column of spec/10_state.md R23 (spec/30_encoding.md R76). -/
def regOffset : Reg → Byte
  | .cmd => 0x00
  | .status => 0x04
  | .variantIn => 0x08
  | .arbLenIn => 0x0C
  | .arbIn => 0x10
  | .cmdLenIn => 0x14
  | .cmdIn => 0x18
  | .dataLenIn => 0x1C
  | .dataIn k => BitVec.ofNat 8 (0x20 + 4 * k.val)
  | .frameVariant => 0x40
  | .frameArb => 0x44
  | .frameCcf => 0x48
  | .frameData k => BitVec.ofNat 8 (0x50 + 4 * k.val)
  | .crc => 0x70
  | .serLen => 0x74
  | .serW j => BitVec.ofNat 8 (0x78 + 4 * j.val)

/-- A port access is 4 bytes wide at an offset that is a multiple of 4 (spec/20_memory.md R54, R59). -/
def accessAccepted (a : Access) : Bool := a.size == 4 && a.off.toNat % 4 == 0

end Sys2Proof.Machine
end

