-- ==== Sys2Proof/Machine/Ops.lean ====
section
/-! DEFINITION. The named operations over the state: the field updates, how an operation ends (spec/60_exceptions.md
R183, R184), the register window (spec/10_state.md R23 to R41; spec/20_memory.md R52, R53), the reset input
(spec/70_reset_and_hazards.md R200) and the host's inputs. The FPK takes no exception and returns from none
(spec/60_exceptions.md R187, R188): `raise` is what it has in their place. -/

namespace Sys2Proof.Machine

/-! ## Field updates -/

def State.setInp (i : Inputs) (s : State) : State := { s with inp := i }

/-- Write the results of operations: the frame, its checksum, its serialization. -/
def State.setResults (f : Option Frame) (c : Option Crc) (b : Option BitSeq) (s : State) : State :=
  { s with frame := f, crc := c, ser := b }

def State.setStatus (st : Status) (s : State) : State := { s with status := st }

def State.setProgram (p : List HostInput) (s : State) : State := { s with program := p }

/-- "The program records the value read" (spec/30_encoding.md R76). -/
def State.recordRead (v : Word) (s : State) : State := { s with reads := s.reads ++ [v] }

/-! ## How an operation ends -/

/-- The errors of R181. -/
inductive OpError where
  | fieldLength (field : ErrField) (expected actual : Byte)
  | noFrame
  | illegalOp
deriving DecidableEq, Repr

/-- `{code(E), field, expected, actual}`, the last three NONE, 0, 0 for NO_FRAME and ILLEGAL_OP (R183). -/
def errorStatus : OpError → Status
  | .fieldLength f e a => { code := .fieldLength, field := f, expected := e, actual := a }
  | .noFrame => { code := .noFrame, field := .none, expected := 0, actual := 0 }
  | .illegalOp => { code := .illegalOp, field := .none, expected := 0, actual := 0 }

/-- `raise E(field, expected, actual)`: sets `status` and changes no other state (R183). -/
def raise (e : OpError) (s : State) : State := s.setStatus (errorStatus e)

/-- `ok()`: sets `status <- {NONE, NONE, 0, 0}` (R184). -/
def ok (s : State) : State := s.setStatus Status.clear

/-! ## The register window -/

/-- What the host reads of each register (spec/10_state.md R24 to R40). -/
def readReg (r : Reg) (s : State) : Word :=
  match r with
  | .cmd => 0
  | .status => statusWord s
  | .variantIn => bitWord s.inp.variant
  | .arbLenIn => s.inp.arbLen.setWidth 32
  | .arbIn => s.inp.arb
  | .cmdLenIn => s.inp.cmdLen.setWidth 32
  | .cmdIn => s.inp.cmd.setWidth 32
  | .dataLenIn => s.inp.dataLen.setWidth 32
  | .dataIn k => s.inp.data[k].setWidth 32
  | .frameVariant => match s.frame with
    | some F => bitWord F.variant
    | none => 0
  | .frameArb => match s.frame with
    | some F => seqWord F.arb
    | none => 0
  | .frameCcf => match s.frame with
    | some F => seqWord F.ccf
    | none => 0
  | .frameData k => match s.frame with
    | some F => F.data[k].setWidth 32
    | none => 0
  | .crc => match s.crc with
    | some c => c.setWidth 32
    | none => 0
  | .serLen => match s.ser with
    | some b => BitVec.ofNat 32 b.length
    | none => 0
  | .serW j => match s.ser with
    | some b => serWord b j
    | none => 0

/-- The value of the window at an offset that is a multiple of 4: `MemRead(off, 4)` (spec/20_memory.md R53). A
reserved offset reads 0 (spec/10_state.md R41). -/
def readWindow (off : Byte) (s : State) : Word :=
  match regAt off with
  | some r => readReg r s
  | none => 0

/-- Store the field of a staging register (spec/10_state.md R27 to R33). -/
def storeInput (r : Reg) (v : Word) (i : Inputs) : Inputs :=
  match r with
  | .variantIn => { i with variant := v.getLsbD 0 }
  | .arbLenIn => { i with arbLen := v.extractLsb' 0 8 }
  | .arbIn => { i with arb := v }
  | .cmdLenIn => { i with cmdLen := v.extractLsb' 0 8 }
  | .cmdIn => { i with cmd := v.extractLsb' 0 8 }
  | .dataLenIn => { i with dataLen := v.extractLsb' 0 8 }
  | .dataIn k => { i with data := i.data.set k (v.extractLsb' 0 8) }
  | .cmd => i
  | .status => i
  | .frameVariant => i
  | .frameArb => i
  | .frameCcf => i
  | .frameData _ => i
  | .crc => i
  | .serLen => i
  | .serW _ => i

/-- The write of a register other than CMD: an RW register stores its field, an RO register ignores the write
(spec/20_memory.md R52; spec/10_state.md R23). -/
def storeReg (r : Reg) (v : Word) (s : State) : State := s.setInp (storeInput r v s.inp)

/-! ## The reset input and the host's inputs -/

/-- Asserting reset sets the whole state to `S_reset` (spec/70_reset_and_hazards.md R200; spec/10_state.md R45). The
parameters are the machine's and the program and its record the host's: they stay (log 4). -/
def assertReset (s : State) : State :=
  { inp := Inputs.reset, frame := none, crc := none, ser := none, status := Status.clear
    config := s.config, program := s.program, reads := s.reads }

/-- The host's next input, and the state with it taken off the program; `none` when the program has ended. -/
def nextInput (s : State) : Option (HostInput × State) :=
  match s.program with
  | [] => none
  | x :: rest => some (x, s.setProgram rest)

/-- Put an input where the next step takes its input from. -/
def pushInput (x : HostInput) (s : State) : State := s.setProgram (x :: s.program)

end Sys2Proof.Machine
end

