-- ==== Sys2Proof/Machine/Build.lean ====
section
/-! DEFINITION. BUILD: field width validation and frame assembly (spec/40_build.md). -/

namespace Sys2Proof.Machine

/-- `BUILD_check`: the first mismatch in the order arbitration, command, data (R102; spec/60_exceptions.md R186). -/
def checkWidths (i : Inputs) : Option OpError :=
  if i.arbLen.toNat ≠ expectedArbLen i.variant then
    some (.fieldLength .arbitration (BitVec.ofNat 8 (expectedArbLen i.variant)) i.arbLen)
  else if i.cmdLen.toNat ≠ cmdLen then
    some (.fieldLength .command (BitVec.ofNat 8 cmdLen) i.cmdLen)
  else if i.dataLen.toNat ≠ dataBytes then
    some (.fieldLength .data (BitVec.ofNat 8 dataBytes) i.dataLen)
  else none

/-- `BUILD_assemble` (R103). -/
def assembleFrame (i : Inputs) : Frame :=
  { variant := i.variant
    arb := arbitrationSeq i (expectedArbLen i.variant)
    ccf := completeCommandField i
    data := i.data }

/-- The contract `build(variant, arbitration, command, data) → Frame | FieldLengthError` (R100 to R103). -/
def buildFrame (i : Inputs) : Except OpError Frame :=
  match checkWidths i with
  | some e => .error e
  | none => .ok (assembleFrame i)

/-- The operation BUILD: on success the new frame replaces the old one and its derivations (R104), on failure
nothing but `status` changes (R105). -/
def build (s : State) : State :=
  match buildFrame s.inp with
  | .ok F => ok (s.setResults (some F) none none)
  | .error e => raise e s

/-- BUILD (R100 to R110). Bits [31:4] of the command word have no effect (spec/30_encoding.md R72). -/
def execBuild (_ign : BitVec 28) (s : State) : Host.Outcome State Fault Refusal := .next (build s)

end Sys2Proof.Machine
end

