-- ==== Sys2Proof/Machine/Control.lean ====
section
/-! DEFINITION. CLEAR and the reserved opcodes (spec/43_control.md). -/

namespace Sys2Proof.Machine

/-- The operation CLEAR: frame, checksum and serialization dropped, the staging registers kept (R170). -/
def clearFrame (s : State) : State := ok (s.setResults none none none)

/-- The operation of a reserved opcode: nothing but `status` changes (R171). -/
def reserved (s : State) : State := raise .illegalOp s

/-- CLEAR (R170). Bits [31:4] of the command word have no effect (spec/30_encoding.md R72). -/
def execClear (_ign : BitVec 28) (s : State) : Host.Outcome State Fault Refusal := .next (clearFrame s)

/-- RSVD_0 (R171): OP = 0x0. -/
def execRsvd0 (_ign : BitVec 28) (s : State) : Host.Outcome State Fault Refusal := .next (reserved s)

/-- RSVD_5 (R171): OP = 0x5. -/
def execRsvd5 (_ign : BitVec 28) (s : State) : Host.Outcome State Fault Refusal := .next (reserved s)

/-- RSVD_6 (R171): OP = 0x6. -/
def execRsvd6 (_ign : BitVec 28) (s : State) : Host.Outcome State Fault Refusal := .next (reserved s)

/-- RSVD_7 (R171): OP = 0x7. -/
def execRsvd7 (_ign : BitVec 28) (s : State) : Host.Outcome State Fault Refusal := .next (reserved s)

/-- RSVD_8 (R171): OP = 0x8. -/
def execRsvd8 (_ign : BitVec 28) (s : State) : Host.Outcome State Fault Refusal := .next (reserved s)

/-- RSVD_9 (R171): OP = 0x9. -/
def execRsvd9 (_ign : BitVec 28) (s : State) : Host.Outcome State Fault Refusal := .next (reserved s)

/-- RSVD_A (R171): OP = 0xA. -/
def execRsvdA (_ign : BitVec 28) (s : State) : Host.Outcome State Fault Refusal := .next (reserved s)

/-- RSVD_B (R171): OP = 0xB. -/
def execRsvdB (_ign : BitVec 28) (s : State) : Host.Outcome State Fault Refusal := .next (reserved s)

/-- RSVD_C (R171): OP = 0xC. -/
def execRsvdC (_ign : BitVec 28) (s : State) : Host.Outcome State Fault Refusal := .next (reserved s)

/-- RSVD_D (R171): OP = 0xD. -/
def execRsvdD (_ign : BitVec 28) (s : State) : Host.Outcome State Fault Refusal := .next (reserved s)

/-- RSVD_E (R171): OP = 0xE. -/
def execRsvdE (_ign : BitVec 28) (s : State) : Host.Outcome State Fault Refusal := .next (reserved s)

/-- RSVD_F (R171): OP = 0xF. -/
def execRsvdF (_ign : BitVec 28) (s : State) : Host.Outcome State Fault Refusal := .next (reserved s)

end Sys2Proof.Machine
end

