-- ==== Sys2Proof/Machine/Checksum.lean ====
section
/-! DEFINITION. The frame stream, the CRC-15 engine and CHECKSUM (spec/41_checksum.md). -/

namespace Sys2Proof.Machine

/-- `stream(F) = [0] ++ F.arb ++ F.ccf ++ bytes_bits(F.data)` (R130, R131). -/
def stream (F : Frame) : BitSeq := [false] ++ F.arb ++ F.ccf ++ bytesBits F.data.toList

/-- One turn of the shift register: `nxt = s[i] ^ c[14]`, shift, and subtract the polynomial if `nxt` (R132). -/
def crcStep (poly : Crc) (c : Crc) (b : Bit) : Crc :=
  let shifted := c <<< 1
  if Bool.xor b (c.getLsbD 14) then shifted ^^^ poly else shifted

/-- `crc15_bits(s)` (R132). -/
def crc15Bits (cfg : Config) (s : BitSeq) : Crc := s.foldl (crcStep cfg.crcPoly) cfg.crcInit

/-- `crc15(F) = crc15_bits(stream(F))` (R133). -/
def crc15 (cfg : Config) (F : Frame) : Crc := crc15Bits cfg (stream F)

/-- The operation CHECKSUM (R134). -/
def checksum (s : State) : State :=
  match s.frame with
  | none => raise .noFrame s
  | some F => ok (s.setResults s.frame (some (crc15 s.config F)) s.ser)

/-- CHECKSUM (R134). Bits [31:4] of the command word have no effect (spec/30_encoding.md R72). -/
def execChecksum (_ign : BitVec 28) (s : State) : Host.Outcome State Fault Refusal := .next (checksum s)

end Sys2Proof.Machine
end

