-- ==== Sys2Proof/Machine/Serialize.lean ====
section
/-! DEFINITION. The serialized frame and SERIALIZE (spec/42_serialize.md). -/

namespace Sys2Proof.Machine

/-- `serialize(F)`: stream, checksum bit 14 first, CRC delimiter, acknowledge slot, acknowledge delimiter, end-of-frame
(R150); no stuff bits (R153). -/
def serializeFrame (cfg : Config) (F : Frame) : BitSeq :=
  stream F ++ seqMsb (crc15 cfg F) crcWidth ++ [true] ++ [cfg.ackSlotBit] ++ [true] ++ ones eofLen

/-- The operation SERIALIZE (R152). -/
def serialize (s : State) : State :=
  match s.frame with
  | none => raise .noFrame s
  | some F => ok (s.setResults s.frame (some (crc15 s.config F)) (some (serializeFrame s.config F)))

/-- SERIALIZE (R152). Bits [31:4] of the command word have no effect (spec/30_encoding.md R72). -/
def execSerialize (_ign : BitVec 28) (s : State) : Host.Outcome State Fault Refusal := .next (serialize s)

end Sys2Proof.Machine
end

