-- ==== Sys2Proof/Machine/Access.lean ====
section
/-! DEFINITION. Host accesses: WR, RD and the port (spec/20_memory.md R52 to R54; spec/60_exceptions.md R185). -/

namespace Sys2Proof.Machine

/-- `perform(w[3:0])`: the operation that a write of `w` to CMD starts (spec/10_state.md R24; spec/30_encoding.md
R71). OP has 4 bits, so the last arm is OP = 0xF alone. -/
def perform (w : Word) (s : State) : Host.Outcome State Fault Refusal :=
  match (opField w).toNat with
  | 0x0 => execRsvd0 (ignField w) s
  | 0x1 => execBuild (ignField w) s
  | 0x2 => execChecksum (ignField w) s
  | 0x3 => execSerialize (ignField w) s
  | 0x4 => execClear (ignField w) s
  | 0x5 => execRsvd5 (ignField w) s
  | 0x6 => execRsvd6 (ignField w) s
  | 0x7 => execRsvd7 (ignField w) s
  | 0x8 => execRsvd8 (ignField w) s
  | 0x9 => execRsvd9 (ignField w) s
  | 0xA => execRsvdA (ignField w) s
  | 0xB => execRsvdB (ignField w) s
  | 0xC => execRsvdC (ignField w) s
  | 0xD => execRsvdD (ignField w) s
  | 0xE => execRsvdE (ignField w) s
  | _ => execRsvdF (ignField w) s

/-- `MemWrite(off, 4, v)` at an offset that is a multiple of 4 (R52): CMD performs an operation, an RW register
stores its field, an RO register or a reserved offset ignores the write. -/
def memWrite (off : Byte) (v : Word) (s : State) : Host.Outcome State Fault Refusal :=
  match regAt off with
  | some .cmd => perform v s
  | some r => .next (storeReg r v s)
  | none => .next s

/-- `MemRead(off, 4)` at an offset that is a multiple of 4 (R53): no state of the FPK changes, the host's program
records the value. -/
def memRead (off : Byte) (s : State) : Host.Outcome State Fault Refusal :=
  .next (s.recordRead (readWindow off s))

/-- An access at the host port: refused with the bus access fault unless it is 4 bytes wide and aligned (R54,
R185). -/
def portAccess (a : Access) (s : State) : Host.Outcome State Fault Refusal :=
  if accessAccepted a then
    if a.write then memWrite a.off a.data s else memRead a.off s
  else .fault (.busAccess a.write a.size a.off)

/-- WR: `MemWrite(OFF, 4, DATA)` (R52; spec/30_encoding.md R70). -/
def execWr (off : Byte) (data : Word) (s : State) : Host.Outcome State Fault Refusal :=
  portAccess { write := true, size := 4, off := off, data := data } s

/-- RD: `MemRead(OFF, 4)` (R53; spec/30_encoding.md R70: the data field is ignored). -/
def execRd (off : Byte) (ign : Word) (s : State) : Host.Outcome State Fault Refusal :=
  portAccess { write := false, size := 4, off := off, data := ign } s

end Sys2Proof.Machine
end

