-- ==== Sys2Proof/Machine/Dispatch.lean ====
section
/-! DEFINITION. One arm per instruction of spec/opcode_table.json. -/

namespace Sys2Proof.Machine

def exec (i : Instr) (s : State) : Host.Outcome State Fault Refusal :=
  match i with
  | .build ign => Sys2Proof.Machine.execBuild ign s
  | .checksum ign => Sys2Proof.Machine.execChecksum ign s
  | .serialize ign => Sys2Proof.Machine.execSerialize ign s
  | .clear ign => Sys2Proof.Machine.execClear ign s
  | .rsvd0 ign => Sys2Proof.Machine.execRsvd0 ign s
  | .rsvd5 ign => Sys2Proof.Machine.execRsvd5 ign s
  | .rsvd6 ign => Sys2Proof.Machine.execRsvd6 ign s
  | .rsvd7 ign => Sys2Proof.Machine.execRsvd7 ign s
  | .rsvd8 ign => Sys2Proof.Machine.execRsvd8 ign s
  | .rsvd9 ign => Sys2Proof.Machine.execRsvd9 ign s
  | .rsvdA ign => Sys2Proof.Machine.execRsvdA ign s
  | .rsvdB ign => Sys2Proof.Machine.execRsvdB ign s
  | .rsvdC ign => Sys2Proof.Machine.execRsvdC ign s
  | .rsvdD ign => Sys2Proof.Machine.execRsvdD ign s
  | .rsvdE ign => Sys2Proof.Machine.execRsvdE ign s
  | .rsvdF ign => Sys2Proof.Machine.execRsvdF ign s
  | .wr off data => Sys2Proof.Machine.execWr off data s
  | .rd off ign => Sys2Proof.Machine.execRd off ign s

end Sys2Proof.Machine
end

