-- ==== Sys2Proof/Machine/Step.lean ====
section
/-! DEFINITION. One step: the host's next input, taken by the FPK (spec/20_memory.md R62; spec/70_reset_and_hazards.md
R200, R208). -/

namespace Sys2Proof.Machine

/-- One step takes one input: an encoded word is decoded and run, an access goes to the port, the reset input sets the
reset state. With no input left nothing happens (log 2). -/
def step (s : State) : Host.Outcome State Fault Refusal :=
  match nextInput s with
  | none => .next s
  | some (.word w, s') => exec (decode w) s'
  | some (.access a, s') => portAccess a s'
  | some (.reset, s') => .next (assertReset s')

/-- Place the instruction of a numbered word as the host's next input (log 1, log 11); a word that is no encoded form
places nothing. -/
def State.withFetchWord (s : State) (nbits w : Nat) : State :=
  match hostWord nbits w with
  | .ok h => pushInput (.word h) s
  | .error _ => s

end Sys2Proof.Machine
end

