-- ==== Sys2Proof/Machine/Assembler.lean ====
section
/-! DEFINITION. The assembler of spec/30_encoding.md R76: statements, pseudo-instructions, and the lines that spell
them. The machine never sees a line; it sees the host access words the statements stand for. -/

namespace Sys2Proof.Machine

/-- The statements of R76: the two machine statements and the pseudo-instructions. -/
inductive Stmt where
  | wr (r : Reg) (imm : Word)
  | rd (r : Reg)
  | build
  | checksum
  | serialize
  | clear
  | op (n : BitVec 4)
  | ldframe (v len arb cmd : Word) (b : Vector Word 8)
deriving DecidableEq, Repr

/-- `WR <reg>, <imm32>` (R76). -/
def wrStmt (r : Reg) (imm : Word) : Instr := .wr (regOffset r) imm

/-- The machine statements a statement expands to (R76). -/
def expand : Stmt → List Instr
  | .wr r imm => [wrStmt r imm]
  | .rd r => [.rd (regOffset r) 0]
  | .build => [wrStmt .cmd 0x1]
  | .checksum => [wrStmt .cmd 0x2]
  | .serialize => [wrStmt .cmd 0x3]
  | .clear => [wrStmt .cmd 0x4]
  | .op n => [wrStmt .cmd (n.setWidth 32)]
  | .ldframe v len arb cmd b =>
    [wrStmt .variantIn v, wrStmt .arbLenIn len, wrStmt .arbIn arb, wrStmt .cmdLenIn 4, wrStmt .cmdIn cmd,
      wrStmt .dataLenIn 8] ++ (List.finRange 8).map fun k => wrStmt (.dataIn k) b[k]

/-- The host program of a list of statements: their HAW41 words in order (R76; spec/70_reset_and_hazards.md R208). -/
def assemble (p : List Stmt) : List HostInput := (p.flatMap expand).map fun i => .word (encode i)

/-! ## Lines (log 12) -/

/-- The register names of R76 and spec/10_state.md R23. -/
def regNames : List (String × Reg) :=
  [("CMD", .cmd), ("STATUS", .status), ("VARIANT_IN", .variantIn), ("ARB_LEN_IN", .arbLenIn), ("ARB_IN", .arbIn),
    ("CMD_LEN_IN", .cmdLenIn), ("CMD_IN", .cmdIn), ("DATA_LEN_IN", .dataLenIn)]
  ++ [("DATA_IN_0", .dataIn 0), ("DATA_IN_1", .dataIn 1), ("DATA_IN_2", .dataIn 2), ("DATA_IN_3", .dataIn 3),
    ("DATA_IN_4", .dataIn 4), ("DATA_IN_5", .dataIn 5), ("DATA_IN_6", .dataIn 6), ("DATA_IN_7", .dataIn 7)]
  ++ [("FRAME_VARIANT", .frameVariant), ("FRAME_ARB", .frameArb), ("FRAME_CCF", .frameCcf)]
  ++ [("FRAME_DATA_0", .frameData 0), ("FRAME_DATA_1", .frameData 1), ("FRAME_DATA_2", .frameData 2),
    ("FRAME_DATA_3", .frameData 3), ("FRAME_DATA_4", .frameData 4), ("FRAME_DATA_5", .frameData 5),
    ("FRAME_DATA_6", .frameData 6), ("FRAME_DATA_7", .frameData 7)]
  ++ [("CRC", .crc), ("SER_LEN", .serLen), ("SER_W_0", .serW 0), ("SER_W_1", .serW 1), ("SER_W_2", .serW 2),
    ("SER_W_3", .serW 3)]

def regNamed (t : List Char) : Option Reg := (regNames.find? fun p => p.1.toList == t).map Prod.snd

/-- "`;` begins a comment" (R76). -/
def stripComment (l : List Char) : List Char := l.takeWhile (· != ';')

/-- Words and commas of a line; blanks separate words. -/
def lexLine (cur : List Char) : List Char → List (List Char)
  | [] => if cur.isEmpty then [] else [cur]
  | c :: cs =>
    let done := if cur.isEmpty then [] else [cur]
    if c == ' ' || c == '\t' || c == '\r' then done ++ lexLine [] cs
    else if c == ',' then done ++ [[',']] ++ lexLine [] cs
    else lexLine (cur ++ [c]) cs

def decDigit (c : Char) : Option Nat := if '0' ≤ c ∧ c ≤ '9' then some (c.toNat - '0'.toNat) else none

def hexDigit (c : Char) : Option Nat :=
  if '0' ≤ c ∧ c ≤ '9' then some (c.toNat - '0'.toNat)
  else if 'a' ≤ c ∧ c ≤ 'f' then some (c.toNat - 'a'.toNat + 10)
  else if 'A' ≤ c ∧ c ≤ 'F' then some (c.toNat - 'A'.toNat + 10)
  else none

/-- The digits' value after `acc`, `none` at a character that is no digit. -/
def digits (base : Nat) (digit : Char → Option Nat) (acc : Nat) : List Char → Option Nat
  | [] => some acc
  | c :: cs => match digit c with
    | some d => digits base digit (base * acc + d) cs
    | none => none

/-- "Numbers are decimal or `0x` hex" (R76). -/
def number : List Char → Option Nat
  | [] => none
  | '0' :: 'x' :: c :: cs => digits 16 hexDigit 0 (c :: cs)
  | c :: cs => digits 10 decDigit 0 (c :: cs)

/-- An operand that must fit a 32-bit word. -/
def imm32 (t : List Char) : Option Word :=
  match number t with
  | some n => if n < 2 ^ 32 then some (BitVec.ofNat 32 n) else none
  | none => none

/-- Operands separated by commas. -/
def operandList : List (List Char) → Option (List (List Char))
  | [] => some []
  | [t] => if t == [','] then none else some [t]
  | t :: sep :: rest =>
    if t != [','] && sep == [','] && !rest.isEmpty then (operandList rest).map (t :: ·) else none

/-- The 12 operands of LDFRAME: variant, length, arbitration, command, eight bytes (R76). -/
def ldframeStmt : List Word → Option Stmt
  | [v, len, arb, cmd, b0, b1, b2, b3, b4, b5, b6, b7] =>
    some (.ldframe v len arb cmd #v[b0, b1, b2, b3, b4, b5, b6, b7])
  | _ => none

/-- A statement from its first word and its operands (R76). -/
def stmtOf (name : List Char) (ops : List (List Char)) : Option Stmt :=
  if name == "WR".toList then match ops with
    | [r, v] => (regNamed r).bind fun r => (imm32 v).map (.wr r)
    | _ => none
  else if name == "RD".toList then match ops with
    | [r] => (regNamed r).map .rd
    | _ => none
  else if name == "OP".toList then match ops with
    | [n] => (number n).bind fun n => if n ≤ 15 then some (.op (BitVec.ofNat 4 n)) else none
    | _ => none
  else if name == "LDFRAME".toList then (ops.mapM imm32).bind ldframeStmt
  else if !ops.isEmpty then none
  else if name == "BUILD".toList then some .build
  else if name == "CHECKSUM".toList then some .checksum
  else if name == "SERIALIZE".toList then some .serialize
  else if name == "CLEAR".toList then some .clear
  else none

/-- The statement of a line: none of a blank line, an error of a line that is no statement. -/
def parseLine (l : List Char) : Option (List Stmt) :=
  match lexLine [] (stripComment l) with
  | [] => some []
  | name :: rest => ((operandList rest).bind (stmtOf name)).map fun st => [st]

/-- The lines of a text. -/
def splitLines (cur : List Char) : List Char → List (List Char)
  | [] => [cur]
  | c :: cs => if c == '\n' then cur :: splitLines [] cs else splitLines (cur ++ [c]) cs

/-- "A host program is a list of statements, one per line" (R76). -/
def parseProgram (text : List Char) : Option (List Stmt) :=
  ((splitLines [] text).mapM parseLine).map List.flatten

end Sys2Proof.Machine
end

