-- ==== Sys2Proof/Safety.lean ====
section
/-! DEFINITION. What claims speak of: well-formed frames (spec/10_state.md R22), the invariant of reachable states
(R26, R42; spec/60_exceptions.md R181), and how a host program ends (spec/70_reset_and_hazards.md R208). -/

namespace Sys2Proof.Machine

/-- The invariants of a Frame (R22): the lengths of its fields, the extension bit and the reserved bit. -/
abbrev Frame.Wf (F : Frame) : Prop :=
  F.arb.length = expectedArbLen F.variant ∧ F.ccf.length = ccfLen
    ∧ F.ccf[0]? = some F.variant ∧ F.ccf[1]? = some false

/-- What `status` can hold between operations: R26, and for each code what R181 says is recorded. -/
abbrev Status.Consistent (st : Status) : Prop :=
  match st.code with
  | .none => st.field = .none ∧ st.expected = 0 ∧ st.actual = 0
  | .noFrame => st.field = .none ∧ st.expected = 0 ∧ st.actual = 0
  | .illegalOp => st.field = .none ∧ st.expected = 0 ∧ st.actual = 0
  | .fieldLength =>
    st.actual ≠ st.expected
      ∧ ((st.field = .arbitration ∧ (st.expected = 11 ∨ st.expected = 26))
        ∨ (st.field = .command ∧ st.expected = 4) ∨ (st.field = .data ∧ st.expected = 8))

/-- The invariant of the machine. -/
structure State.Inv (s : State) : Prop where
  /-- A held frame is well formed (R22). -/
  frameWf : ∀ F ∈ s.frame, F.Wf
  /-- A checksum shown is that of the frame held (R42). -/
  crcOfFrame : ∀ c ∈ s.crc, ∃ F ∈ s.frame, c = crc15 s.config F
  /-- A serialization shown is that of the frame held, and its checksum is shown too (R42). -/
  serOfFrame : ∀ b ∈ s.ser, ∃ F ∈ s.frame, s.crc = some (crc15 s.config F) ∧ b = serializeFrame s.config F
  /-- `status` describes one outcome (R26, R181). -/
  statusConsistent : s.status.Consistent

/-- How a run of a host program stands: ended after its last access, ended at a refused access with the fault kept, or
not ended within the steps allowed (R208). -/
inductive RunEnd where
  | normal (s : State)
  | faulted (r : Fault) (s : State)
  | refused (r : Refusal) (s : State)
  | unfinished (s : State)
deriving DecidableEq, Repr

/-- Run the host program in the state for at most `fuel` steps. The result holds the state after the last access, and
in its `reads` the values the program's reads returned (R208). -/
def runProgram : Nat → State → RunEnd
  | 0, s => if s.program = [] then .normal s else .unfinished s
  | fuel + 1, s =>
    if s.program = [] then .normal s
    else match step s with
      | .next t => runProgram fuel t
      | .fault r => .faulted r s
      | .refused r => .refused r s

/-- The FPK's own state is that of another state: what "no state of the FPK changes" compares (R20). -/
abbrev State.SameFpk (s t : State) : Prop :=
  s.inp = t.inp ∧ s.frame = t.frame ∧ s.crc = t.crc ∧ s.ser = t.ser ∧ s.status = t.status ∧ s.config = t.config

end Sys2Proof.Machine
end

