-- ==== Sys2Proof/Certificates/Slice0/Obligations.lean ====
section
/-! DEFINITION. The statements for the provers. Rules R<n> are those of spec/; where a rule carries the spec's mark
[decision: ...], the decision is the spec's own (spec/92_eei_decisions.md) and no log entry of the model's. Log
entries are named where a clause rests on one. -/

open Sys2Proof Sys2Proof.Machine

/-! ## Encoding -/

/-- Every instruction, with every operand at every value its encoding admits, decodes from its encoding (R70, R71).
Derived: R70 says a decoder takes every value of both forms; that an instruction keeps its ignored bits is the model's
choice, log 9. -/
def Obligations.DecodeOfEncodeIsIdentity : Prop := ∀ i : Instr, decode (encode i) = i

/-- Every 32-bit command word and every 41-bit host access word is the encoding of what it decodes to: no bit is
dropped and no two words share an instruction (R70; log 9 keeps the ignored bits). -/
def Obligations.EncodeOfDecodeIsIdentity : Prop := ∀ w : HostWord, encode (decode w) = w

/-- The opcode map (30_encoding.md section 2): OP = bits [3:0] of the command word selects the operation a CMD write
performs; every row matches on `w & 0x0000000F`. Derived: each clause also says that the instruction carries the ignored
bits w[31:4] as an operand, which is the model's choice, log 9. -/
def Obligations.OpcodeMapOfCommandWords : Prop :=
  ∀ w : Word,
    (∀ s : State, exec (.wr 0x00 w) s = exec (decode (.cmd32 w)) s)
      ∧ (w &&& 0x0000000F = 0x0 → decode (.cmd32 w) = .rsvd0 (w.extractLsb' 4 28))
      ∧ (w &&& 0x0000000F = 0x1 → decode (.cmd32 w) = .build (w.extractLsb' 4 28))
      ∧ (w &&& 0x0000000F = 0x2 → decode (.cmd32 w) = .checksum (w.extractLsb' 4 28))
      ∧ (w &&& 0x0000000F = 0x3 → decode (.cmd32 w) = .serialize (w.extractLsb' 4 28))
      ∧ (w &&& 0x0000000F = 0x4 → decode (.cmd32 w) = .clear (w.extractLsb' 4 28))
      ∧ (w &&& 0x0000000F = 0x5 → decode (.cmd32 w) = .rsvd5 (w.extractLsb' 4 28))
      ∧ (w &&& 0x0000000F = 0x6 → decode (.cmd32 w) = .rsvd6 (w.extractLsb' 4 28))
      ∧ (w &&& 0x0000000F = 0x7 → decode (.cmd32 w) = .rsvd7 (w.extractLsb' 4 28))
      ∧ (w &&& 0x0000000F = 0x8 → decode (.cmd32 w) = .rsvd8 (w.extractLsb' 4 28))
      ∧ (w &&& 0x0000000F = 0x9 → decode (.cmd32 w) = .rsvd9 (w.extractLsb' 4 28))
      ∧ (w &&& 0x0000000F = 0xA → decode (.cmd32 w) = .rsvdA (w.extractLsb' 4 28))
      ∧ (w &&& 0x0000000F = 0xB → decode (.cmd32 w) = .rsvdB (w.extractLsb' 4 28))
      ∧ (w &&& 0x0000000F = 0xC → decode (.cmd32 w) = .rsvdC (w.extractLsb' 4 28))
      ∧ (w &&& 0x0000000F = 0xD → decode (.cmd32 w) = .rsvdD (w.extractLsb' 4 28))
      ∧ (w &&& 0x0000000F = 0xE → decode (.cmd32 w) = .rsvdE (w.extractLsb' 4 28))
      ∧ (w &&& 0x0000000F = 0xF → decode (.cmd32 w) = .rsvdF (w.extractLsb' 4 28))

/-- The HAW41 fields of R70: W = bit [40], OFF = [39:32], DATA = [31:0]. That an RD carries its ignored data bits is the
model's choice, log 9. -/
def Obligations.AccessWordFields : Prop :=
  ∀ (b : Bit) (off : Byte) (d : Word) (w : BitVec 41),
    w.toNat = (if b then 2 ^ 40 else 0) + off.toNat * 2 ^ 32 + d.toNat →
      decode (.haw41 w) = if b then .wr off d else .rd off d

/-- The worked encodings of 30_encoding.md section 4 (R77), and what they decode to; the RD's data operand is the model's
choice, log 9. -/
def Obligations.WorkedEncodings : Prop :=
  expand .build = expand (.wr .cmd 0x1)
    ∧ (expand (.wr .cmd 0x1)).map encode = [.haw41 0x10000000001]
    ∧ decode (.haw41 0x10000000001) = .wr 0x00 0x00000001
    ∧ (expand (.wr .arbIn 0x123)).map encode = [.haw41 0x11000000123]
    ∧ decode (.haw41 0x11000000123) = .wr 0x10 0x00000123
    ∧ (expand (.rd .crc)).map encode = [.haw41 0x07000000000]
    ∧ decode (.haw41 0x07000000000) = .rd 0x70 0x00000000

/-- The table of pseudo-instructions of R76 (30_encoding.md section 4). -/
def Obligations.PseudoInstructionExpansions : Prop :=
  expand .build = [.wr 0x00 0x1] ∧ expand .checksum = [.wr 0x00 0x2] ∧ expand .serialize = [.wr 0x00 0x3]
    ∧ expand .clear = [.wr 0x00 0x4] ∧ (∀ n : BitVec 4, expand (.op n) = [.wr 0x00 (n.setWidth 32)])
    ∧ ∀ (v len arb cmd b0 b1 b2 b3 b4 b5 b6 b7 : Word),
      expand (.ldframe v len arb cmd #v[b0, b1, b2, b3, b4, b5, b6, b7]) =
        [.wr 0x08 v, .wr 0x0C len, .wr 0x10 arb, .wr 0x14 4, .wr 0x18 cmd, .wr 0x1C 8, .wr 0x20 b0, .wr 0x24 b1,
          .wr 0x28 b2, .wr 0x2C b3, .wr 0x30 b4, .wr 0x34 b5, .wr 0x38 b6, .wr 0x3C b7]

/-- The words of an assembled list of statements decode to the instructions the statements expand to, in order
(30_encoding.md sections 1 and 4). -/
def Obligations.AssembledWordsDecode : Prop :=
  ∀ p : List Stmt,
    (assemble p).map (fun x => match x with
      | .word w => some (decode w)
      | .access _ => none
      | .reset => none) = (p.flatMap expand).map some

/-! ## Steps -/

/-- A step takes the host's next word off the program and runs the instruction it decodes to; a table word placed by
`withFetchWord` runs as the next step. How inputs lie in the state is the model's choice, log 1. -/
def Obligations.StepRunsDecodedInstruction : Prop :=
  (∀ (s : State) (w : HostWord) (rest : List HostInput), s.program = .word w :: rest →
    step s = exec (decode w) { s with program := rest })
  ∧ ∀ (s : State) (nbits w : Nat) (i : Instr), decodeTableWord nbits w = some i →
    step (s.withFetchWord nbits w) = exec i s

/-- The other inputs: an access goes to the port, and with no input left nothing changes (the model's choices, logs 1,
2 and 5). -/
def Obligations.StepTakesAccessOrIdles : Prop :=
  (∀ (s : State) (a : Access) (rest : List HostInput), s.program = .access a :: rest →
    step s = portAccess a { s with program := rest })
  ∧ (∀ (s : State), s.program = [] → step s = .next s)
  ∧ ∀ (s : State) (b : Bit) (off : Byte) (d : Word),
    portAccess ⟨b, 4, off, d⟩ s = exec (if b then .wr off d else .rd off d) s

/-- The reset input (70_reset_and_hazards.md, R200), between accesses, sets the whole state to `S_reset`. The
parameters are the machine's, the program and its record the host's: they stay (the model's choice, log 4). -/
def Obligations.ResetInputSetsResetState : Prop :=
  ∀ (s : State) (rest : List HostInput), s.program = .reset :: rest →
    step s = .next
      { State.reset with config := s.config, program := rest, reads := s.reads }

/-- R45: the reset state, and that every register then reads 0. -/
def Obligations.ResetStateReadsZero : Prop :=
  State.reset.inp = ⟨false, 0, 0, 0, 0, 0, #v[0, 0, 0, 0, 0, 0, 0, 0]⟩
    ∧ State.reset.frame = none ∧ State.reset.crc = none ∧ State.reset.ser = none
    ∧ State.reset.status = ⟨.none, .none, 0, 0⟩
    ∧ ∀ off : Byte, off.toNat % 4 = 0 → readWindow off State.reset = 0

/-- The invariant of R22, R26, R42 and R181 holds at reset. -/
def Obligations.InvariantHoldsAtReset : Prop := State.reset.Inv

/-- Every step keeps the invariant: a held frame is well formed (R22), no register ever shows a checksum or a
serialization of a frame other than the one held (R42), and `status` describes one outcome (R26, R181). -/
def Obligations.EveryStepKeepsInvariant : Prop :=
  ∀ s t : State, s.Inv → step s = .next t → t.Inv

/-- A host program (70_reset_and_hazards.md, R208; the program queue is the model's, log 1) of n inputs ends within n
steps, normally with no input left or at a refused access with the fault kept; it is never refused for want of a
meaning. -/
def Obligations.HostProgramEnds : Prop :=
  ∀ s : State,
    match runProgram s.program.length s with
    | .normal t => t.program = []
    | .faulted r t => step t = .fault r ∧ t.program ≠ []
    | .refused _ _ => False
    | .unfinished _ => False

/-- The FPK raises no traps (R180, R188): a step ends in a next state unless the host's next input is an access that
is not 4 bytes wide and aligned (R54). No step is refused. -/
def Obligations.OnlyBadAccessesStop : Prop :=
  ∀ s : State, (∃ t, step s = .next t) ∨
    ∃ (wbit : Bool) (size : Nat) (off : Byte), step s = .fault (.busAccess wbit size off)
      ∧ (size ≠ 4 ∨ off.toNat % 4 ≠ 0)
      ∧ ((∃ d rest, s.program = .access ⟨wbit, size, off, d⟩ :: rest)
        ∨ ∃ w d rest, s.program = .word w :: rest ∧ size = 4
          ∧ decode w = if wbit then .wr off d else .rd off d)

/-- Inputs are taken in order, one a step; the record of reads only grows, by at most one value; the parameters are
never written (R62 and R7; the fields are the model's, logs 1, 3 and 6). -/
def Obligations.StepTakesOneInputInOrder : Prop :=
  ∀ s t : State, step s = .next t →
    t.program = s.program.tail ∧ t.config = s.config ∧ (t.reads = s.reads ∨ ∃ v, t.reads = s.reads ++ [v])

/-- Only a command or the reset input writes `frame`, `crc`, `ser` or `status` (R26, R204): if a step changes one of
them, the host's input was reset, a command word, or a 4-byte write of offset 0. -/
def Obligations.OnlyCommandsChangeResults : Prop :=
  ∀ s t : State, step s = .next t →
    (t.frame, t.crc, t.ser, t.status) ≠ (s.frame, s.crc, s.ser, s.status) →
    ∃ x rest, s.program = x :: rest ∧
      (x = .reset ∨ (∃ w, x = .word (.cmd32 w))
        ∨ (∃ w v, x = .word w ∧ decode w = .wr 0x00 v) ∨ ∃ v, x = .access ⟨true, 4, 0x00, v⟩)

/-- Only a write of a staging register or the reset input changes the staging area (R204; 10_state.md section 2): if a
step changes `in`, the host's input was reset or a 4-byte write of one of the offsets 0x08 to 0x3C. -/
def Obligations.OnlyStagingWritesChangeInputs : Prop :=
  ∀ s t : State, step s = .next t → t.inp ≠ s.inp →
    ∃ x rest, s.program = x :: rest ∧
      (x = .reset ∨ ∃ (off : Byte) (v : Word), 0x08 ≤ off.toNat ∧ off.toNat ≤ 0x3C ∧
        ((∃ w, x = .word w ∧ decode w = .wr off v) ∨ x = .access ⟨true, 4, off, v⟩))

/-- No step edits a held frame (R22): after a step the frame is the one held before, or none, or the whole new frame
that BUILD assembles from the staging registers, all of whose lengths were right. -/
def Obligations.HeldFrameIsNeverEdited : Prop :=
  ∀ s t : State, step s = .next t →
    t.frame = s.frame ∨ t.frame = none ∨
      (t.frame = some (assembleFrame s.inp)
        ∧ s.inp.arbLen.toNat = (if s.inp.variant then 26 else 11)
        ∧ s.inp.cmdLen.toNat = 4 ∧ s.inp.dataLen.toNat = 8)

/-! ## BUILD -/

/-- R103 and R104: with the three lengths right, BUILD completes: the frame is assembled from the staging registers,
the checksum and the serialization are dropped, `status` is cleared, STATUS reads 1, and nothing else changes. -/
def Obligations.BuildHoldsAssembledFrame : Prop :=
  ∀ (u : BitVec 28) (s : State),
    s.inp.arbLen.toNat = (if s.inp.variant then 26 else 11) → s.inp.cmdLen.toNat = 4 → s.inp.dataLen.toNat = 8 →
    ∃ t, exec (.build u) s = .next t
      ∧ t = { s with
          frame := some
            { variant := s.inp.variant
              arb := seqMsb s.inp.arb (if s.inp.variant then 26 else 11)
              ccf := [s.inp.variant, false] ++ seqMsb s.inp.cmd 4
              data := s.inp.data }
          crc := none
          ser := none
          status := ⟨.none, .none, 0, 0⟩ }
      ∧ readWindow 0x04 t = 0x00000001

/-- R102: the first wrong length, in the order arbitration, command, data, is reported with the field, the expected
length and the supplied one, and nothing but `status` changes. -/
def Obligations.BuildReportsFirstWrongLength : Prop :=
  ∀ (u : BitVec 28) (s : State) (ea : Nat), ea = (if s.inp.variant then 26 else 11) →
    (s.inp.arbLen.toNat ≠ ea →
      exec (.build u) s = .next { s with status := ⟨.fieldLength, .arbitration, BitVec.ofNat 8 ea, s.inp.arbLen⟩ })
    ∧ (s.inp.arbLen.toNat = ea → s.inp.cmdLen.toNat ≠ 4 →
      exec (.build u) s = .next { s with status := ⟨.fieldLength, .command, 4, s.inp.cmdLen⟩ })
    ∧ (s.inp.arbLen.toNat = ea → s.inp.cmdLen.toNat = 4 → s.inp.dataLen.toNat ≠ 8 →
      exec (.build u) s = .next { s with status := ⟨.fieldLength, .data, 8, s.inp.dataLen⟩ })

/-- STATUS after a failed BUILD (40_build.md, R105): the error and its record are shown, FRAME_VALID, CRC_VALID and
SER_VALID are unchanged. -/
def Obligations.FailedBuildStatusWord : Prop :=
  ∀ (u : BitVec 28) (s : State),
    (s.inp.arbLen.toNat ≠ (if s.inp.variant then 26 else 11) ∨ s.inp.cmdLen.toNat ≠ 4 ∨ s.inp.dataLen.toNat ≠ 8) →
    ∃ t, exec (.build u) s = .next t
      ∧ (readWindow 0x04 t).extractLsb' 0 3 = (readWindow 0x04 s).extractLsb' 0 3
      ∧ (readWindow 0x04 t).getLsbD 3 = true
      ∧ (readWindow 0x04 t).extractLsb' 4 4 = 1
      ∧ (readWindow 0x04 t).extractLsb' 8 2 = errFieldBits t.status.field
      ∧ (readWindow 0x04 t).extractLsb' 16 8 = t.status.expected
      ∧ (readWindow 0x04 t).extractLsb' 24 8 = t.status.actual

/-- The round-trip identity (40_build.md, R106): after a successful BUILD the frame registers read the inputs
verbatim. -/
def Obligations.BuiltFrameReadsBackInputs : Prop :=
  ∀ (u : BitVec 28) (s : State),
    s.inp.arbLen.toNat = (if s.inp.variant then 26 else 11) → s.inp.cmdLen.toNat = 4 → s.inp.dataLen.toNat = 8 →
    ∃ t, exec (.build u) s = .next t
      ∧ readWindow 0x40 t = (if s.inp.variant then 1 else 0)
      ∧ readWindow 0x44 t = (if s.inp.variant then s.inp.arb &&& 0x03FFFFFF else s.inp.arb &&& 0x000007FF)
      ∧ (readWindow 0x48 t).extractLsb' 0 4 = s.inp.cmd.extractLsb' 0 4
      ∧ (readWindow 0x48 t).getLsbD 5 = s.inp.variant
      ∧ (readWindow 0x48 t).getLsbD 4 = false
      ∧ ∀ k : Fin 8, readWindow (BitVec.ofNat 8 (0x50 + 4 * k.val)) t = s.inp.data[k].setWidth 32

/-- Failure completeness (40_build.md, R107): with any length wrong, BUILD fails with FIELD_LENGTH and names a field
whose length is wrong. -/
def Obligations.BuildFailsOnEveryWrongLength : Prop :=
  ∀ (u : BitVec 28) (s : State),
    (s.inp.arbLen.toNat ≠ (if s.inp.variant then 26 else 11) ∨ s.inp.cmdLen.toNat ≠ 4 ∨ s.inp.dataLen.toNat ≠ 8) →
    ∃ t, exec (.build u) s = .next t ∧ t.status.code = .fieldLength
      ∧ ((t.status.field = .arbitration ∧ s.inp.arbLen.toNat ≠ (if s.inp.variant then 26 else 11))
        ∨ (t.status.field = .command ∧ s.inp.cmdLen.toNat ≠ 4)
        ∨ (t.status.field = .data ∧ s.inp.dataLen.toNat ≠ 8))

/-- R109: bits `in.arb[31:EA(v)]` and `in.cmd[7:4]` do not affect BUILD: changing them, and them only, gives the same
result beside the changed inputs. -/
def Obligations.BitsBeyondLengthDoNotAffectBuild : Prop :=
  ∀ (u : BitVec 28) (s : State) (arb : Word) (cmd : Byte),
    (∀ k < (if s.inp.variant then 26 else 11), arb.getLsbD k = s.inp.arb.getLsbD k) →
    (∀ k < 4, cmd.getLsbD k = s.inp.cmd.getLsbD k) →
    ∃ t, exec (.build u) s = .next t
      ∧ exec (.build u) { s with inp := { s.inp with arb := arb, cmd := cmd } }
        = .next { t with inp := { s.inp with arb := arb, cmd := cmd } }

/-- R110: BUILD raises only FieldLengthError, and that exactly when a length check fails; it always completes. -/
def Obligations.BuildRaisesOnlyFieldLength : Prop :=
  ∀ (u : BitVec 28) (s : State), ∃ t, exec (.build u) s = .next t
    ∧ (t.status.code = .none ∨ t.status.code = .fieldLength)
    ∧ (t.status.code = .fieldLength ↔
      (s.inp.arbLen.toNat ≠ (if s.inp.variant then 26 else 11) ∨ s.inp.cmdLen.toNat ≠ 4 ∨ s.inp.dataLen.toNat ≠ 8))

/-! ## CHECKSUM -/

/-- R134: CHECKSUM, the CMD write with OP = 0x2, of a held frame shows its checksum and clears the error; with no
frame it raises NO_FRAME and nothing but `status` changes. -/
def Obligations.ChecksumOfHeldFrame : Prop :=
  ∀ (u : BitVec 28) (s : State),
    (∀ w : Word, w.extractLsb' 0 4 = 0x2 → exec (.wr 0x00 w) s = exec (.checksum u) s)
    ∧ (s.frame = none → exec (.checksum u) s = .next { s with status := ⟨.noFrame, .none, 0, 0⟩ })
    ∧ ∀ F, s.frame = some F →
      ∃ t, exec (.checksum u) s = .next t
        ∧ t = { s with crc := some (crc15Bits s.config (stream F)), status := ⟨.none, .none, 0, 0⟩ }
        ∧ readWindow 0x04 t = (if s.ser.isSome then 0x00000007 else 0x00000003)

/-- R132: the engine consumes its input one element at a time; with the default parameters its result is the remainder
of `M(x) · x^15` divided by `G(x) = x^15 + x^14 + x^10 + x^8 + x^7 + x^4 + x^3 + 1` over GF(2). -/
def Obligations.CrcIsPolynomialRemainder : Prop :=
  (∀ cfg : Config, crc15Bits cfg [] = cfg.crcInit)
  ∧ (∀ (cfg : Config) (s : BitSeq) (b : Bit),
      crc15Bits cfg (s ++ [b]) =
        if Bool.xor b ((crc15Bits cfg s).getLsbD 14) then ((crc15Bits cfg s <<< 1) &&& 0x7FFF) ^^^ cfg.crcPoly
        else (crc15Bits cfg s <<< 1) &&& 0x7FFF)
  ∧ ∀ s : BitSeq,
    Polynomial.modByMonic
        ((∑ i ∈ Finset.range s.length,
            if s.getD i false then (Polynomial.X ^ (s.length - 1 - i) : Polynomial (ZMod 2)) else 0)
          * Polynomial.X ^ 15)
        (Polynomial.X ^ 15 + Polynomial.X ^ 14 + Polynomial.X ^ 10 + Polynomial.X ^ 8 + Polynomial.X ^ 7
          + Polynomial.X ^ 4 + Polynomial.X ^ 3 + 1)
      = ∑ k ∈ Finset.range 15,
          if (crc15Bits Config.fpk s).getLsbD k then (Polynomial.X ^ k : Polynomial (ZMod 2)) else 0

/-- Linearity (41_checksum.md, R136): with `CRC_INIT = 0` the checksum of the elementwise sum of two sequences of the
same length is the sum of their checksums, for every polynomial. -/
def Obligations.CrcIsLinear : Prop :=
  ∀ (cfg : Config) (s t : BitSeq), cfg.crcInit = 0 → s.length = t.length →
    crc15Bits cfg (List.zipWith Bool.xor s t) = crc15Bits cfg s ^^^ crc15Bits cfg t

/-- A single-bit change anywhere in a sequence changes its checksum (41_checksum.md, R136), whatever the initial value,
for the default polynomial. -/
def Obligations.SingleBitChangeChangesCrc : Prop :=
  ∀ (cfg : Config) (s : BitSeq) (i : Nat) (h : i < s.length), cfg.crcPoly = 0x4599 →
    crc15Bits cfg (s.set i (!s[i])) ≠ crc15Bits cfg s

/-- The corner cases of 41_checksum.md (R136) with `CRC_INIT = 0`: an all-zero stream of any length gives 0, and one
whose only 1 is its last element gives the polynomial. -/
def Obligations.CrcOfZerosAndOfLastOne : Prop :=
  ∀ (cfg : Config) (n : Nat), cfg.crcInit = 0 →
    crc15Bits cfg (List.replicate n false) = 0
      ∧ crc15Bits cfg (List.replicate n false ++ [true]) = cfg.crcPoly

/-- R137: the engine's check value over the 72 bits of the ASCII string "123456789". -/
def Obligations.EngineCheckValue : Prop :=
  crc15Bits Config.fpk (bytesBits [0x31, 0x32, 0x33, 0x34, 0x35, 0x36, 0x37, 0x38, 0x39]) = 0x059E

/-- R130 and R131: the layout of the frame stream, element by element. -/
def Obligations.StreamLayout : Prop :=
  ∀ (F : Frame) (L : Nat), F.Wf → L = (if F.variant then 26 else 11) →
    (stream F).length = 1 + L + 6 + 64
    ∧ (stream F)[0]? = some false
    ∧ (∀ i < L, (stream F)[1 + i]? = F.arb[i]?)
    ∧ (∀ i < 6, (stream F)[1 + L + i]? = F.ccf[i]?)
    ∧ ∀ (k : Fin 8), ∀ i < 8, (stream F)[1 + L + 6 + 8 * k.val + i]? = some (F.data[k].getLsbD (7 - i))

/-- CHECKSUM and SERIALIZE read the frame (and the parameters) only, CLEAR reads nothing (30_encoding.md, R74; R135):
two states that hold the same frame and parameters get the same results, whatever their staging registers and earlier
results are; and repeating CHECKSUM leaves the state unchanged. -/
def Obligations.ResultsDependOnFrameOnly : Prop :=
  ∀ (u u' : BitVec 28) (s s' : State) (F : Frame), s.frame = some F → s'.frame = some F → s.config = s'.config →
    (∃ t t', exec (.checksum u) s = .next t ∧ exec (.checksum u') s' = .next t'
      ∧ t.crc = t'.crc ∧ t.status = t'.status ∧ exec (.checksum u') t = .next t)
    ∧ (∃ t t', exec (.serialize u) s = .next t ∧ exec (.serialize u') s' = .next t'
      ∧ t.crc = t'.crc ∧ t.ser = t'.ser ∧ t.status = t'.status ∧ exec (.serialize u') t = .next t)
    ∧ (∃ t t', exec (.clear u) s = .next t ∧ exec (.clear u') s' = .next t'
      ∧ (t.frame, t.crc, t.ser, t.status) = (t'.frame, t'.crc, t'.ser, t'.status) ∧ exec (.clear u') t = .next t)

/-! ## SERIALIZE -/

/-- R152: SERIALIZE, the CMD write with OP = 0x3, of a held frame shows its serialization and the checksum CHECKSUM
would, and clears the error; with no frame it raises NO_FRAME and nothing but `status` changes. -/
def Obligations.SerializeOfHeldFrame : Prop :=
  ∀ (u : BitVec 28) (s : State),
    (∀ w : Word, w.extractLsb' 0 4 = 0x3 → exec (.wr 0x00 w) s = exec (.serialize u) s)
    ∧ (s.frame = none → exec (.serialize u) s = .next { s with status := ⟨.noFrame, .none, 0, 0⟩ })
    ∧ ∀ F, s.frame = some F →
      ∃ t, exec (.serialize u) s = .next t
        ∧ t = { s with
            crc := some (crc15Bits s.config (stream F))
            ser := some (serializeFrame s.config F)
            status := ⟨.none, .none, 0, 0⟩ }
        ∧ readWindow 0x04 t = 0x00000007
        ∧ ∃ t', exec (.checksum u) s = .next t' ∧ t'.crc = t.crc

/-- R150: the serialized frame, element by element: the stream, the checksum bit 14 first, the CRC delimiter 1, the
acknowledge slot, the acknowledge delimiter 1, seven ones; 107 or 122 elements in all. -/
def Obligations.SerializedFrameLayout : Prop :=
  ∀ (cfg : Config) (F : Frame) (N : Nat), F.Wf → N = (if F.variant then 97 else 82) →
    (serializeFrame cfg F).length = (if F.variant then 122 else 107)
    ∧ (stream F).length = N
    ∧ (∀ i < N, (serializeFrame cfg F)[i]? = (stream F)[i]?)
    ∧ (∀ i < 15, (serializeFrame cfg F)[N + i]? = some ((crc15 cfg F).getLsbD (14 - i)))
    ∧ (serializeFrame cfg F)[N + 15]? = some true
    ∧ (serializeFrame cfg F)[N + 16]? = some cfg.ackSlotBit
    ∧ (serializeFrame cfg F)[N + 17]? = some true
    ∧ ∀ i < 7, (serializeFrame cfg F)[N + 18 + i]? = some true

/-! ## CLEAR and the reserved opcodes -/

/-- R170: CLEAR, the CMD write with OP = 0x4, always succeeds, drops frame, checksum and serialization, keeps the
staging registers, and every frame, CRC and serialization register and STATUS then read 0; CLEAR twice is CLEAR once.
-/
def Obligations.ClearDropsFrame : Prop :=
  ∀ (u : BitVec 28) (s : State), ∃ t, exec (.clear u) s = .next t
    ∧ t = { s with frame := none, crc := none, ser := none, status := ⟨.none, .none, 0, 0⟩ }
    ∧ readWindow 0x04 t = 0
    ∧ (∀ off : Byte, off.toNat % 4 = 0 → 0x40 ≤ off.toNat → readWindow off t = 0)
    ∧ exec (.clear u) t = .next t
    ∧ ∀ w : Word, w.extractLsb' 0 4 = 0x4 → exec (.wr 0x00 w) s = .next t

/-- R171: each reserved opcode, and so a CMD write whose OP is 0 or 5 to 15, raises ILLEGAL_OP whatever the state;
nothing but `status` changes, STATUS keeps FRAME_VALID, CRC_VALID and SER_VALID and shows ERR = 1, ERR_CODE = 3 and
zeros. -/
def Obligations.ReservedOpcodesRaiseIllegalOp : Prop :=
  ∀ (u : BitVec 28) (s : State) (i : Instr),
    i ∈ ([.rsvd0 u, .rsvd5 u, .rsvd6 u, .rsvd7 u, .rsvd8 u, .rsvd9 u, .rsvdA u, .rsvdB u, .rsvdC u, .rsvdD u,
      .rsvdE u, .rsvdF u] : List Instr) →
    ∃ t, exec i s = .next t
      ∧ t = { s with status := ⟨.illegalOp, .none, 0, 0⟩ }
      ∧ (readWindow 0x04 t).extractLsb' 0 3 = (readWindow 0x04 s).extractLsb' 0 3
      ∧ (readWindow 0x04 t).extractLsb' 3 29 = 0x7
      ∧ ∀ w : Word, (w.extractLsb' 0 4 = 0 ∨ 5 ≤ (w.extractLsb' 0 4).toNat) → exec (.wr 0x00 w) s = .next t

/-- R72: bits [31:4] of the command word are ignored: two words with the same OP do the same; a reserved OP performs
the ILLEGAL_OP outcome and nothing else. -/
def Obligations.CommandUpperBitsIgnored : Prop :=
  (∀ (w w' : Word) (s : State), w.extractLsb' 0 4 = w'.extractLsb' 0 4 →
    exec (decode (.cmd32 w)) s = exec (decode (.cmd32 w')) s)
  ∧ ∀ (w : Word) (s : State), (w.extractLsb' 0 4 = 0 ∨ 5 ≤ (w.extractLsb' 0 4).toNat) →
    exec (decode (.cmd32 w)) s = .next { s with status := ⟨.illegalOp, .none, 0, 0⟩ }

/-! ## The register window -/

/-- R24: a write of CMD starts the operation of `w[3:0]`, its other bits ignored; CMD reads 0, and an RD of it changes
no state of the FPK. -/
def Obligations.CommandRegister : Prop :=
  (∀ (w : Word) (s : State), exec (.wr 0x00 w) s = exec (decode (.cmd32 w)) s)
  ∧ (∀ (w w' : Word) (s : State), w.extractLsb' 0 4 = w'.extractLsb' 0 4 → exec (.wr 0x00 w) s = exec (.wr 0x00 w') s)
  ∧ (∀ s : State, readWindow 0x00 s = 0x00000000)
  ∧ ∀ (d : Word) (s : State), ∃ t, exec (.rd 0x00 d) s = .next t ∧ s.SameFpk t

/-- R25: the fields of STATUS; writes to it are ignored; it reads 0 at reset. -/
def Obligations.StatusRegisterFields : Prop :=
  (∀ s : State,
    (readWindow 0x04 s).getLsbD 0 = s.frame.isSome
    ∧ (readWindow 0x04 s).getLsbD 1 = s.crc.isSome
    ∧ (readWindow 0x04 s).getLsbD 2 = s.ser.isSome
    ∧ (readWindow 0x04 s).getLsbD 3 = decide (s.status.code ≠ .none)
    ∧ (readWindow 0x04 s).extractLsb' 4 4 = (match s.status.code with
      | .none => 0
      | .fieldLength => 1
      | .noFrame => 2
      | .illegalOp => 3)
    ∧ (readWindow 0x04 s).extractLsb' 8 2 = (match s.status.field with
      | .none => 0
      | .arbitration => 1
      | .command => 2
      | .data => 3)
    ∧ (readWindow 0x04 s).extractLsb' 10 6 = 0
    ∧ (readWindow 0x04 s).extractLsb' 16 8 = s.status.expected
    ∧ (readWindow 0x04 s).extractLsb' 24 8 = s.status.actual)
  ∧ (∀ (v : Word) (s : State), exec (.wr 0x04 v) s = .next s)
  ∧ readWindow 0x04 State.reset = 0x00000000

/-- The staging registers (10_state.md section 2): what a WR stores in each and what a read of each returns; every
other field of the state is unchanged. -/
def Obligations.StagingRegistersStoreAndRead : Prop :=
  ∀ (v : Word) (s : State),
    exec (.wr 0x08 v) s = .next { s with inp := { s.inp with variant := v.getLsbD 0 } }
    ∧ readWindow 0x08 s = (if s.inp.variant then 1 else 0)
    ∧ exec (.wr 0x0C v) s = .next { s with inp := { s.inp with arbLen := v.extractLsb' 0 8 } }
    ∧ readWindow 0x0C s = s.inp.arbLen.setWidth 32
    ∧ exec (.wr 0x10 v) s = .next { s with inp := { s.inp with arb := v } }
    ∧ readWindow 0x10 s = s.inp.arb
    ∧ exec (.wr 0x14 v) s = .next { s with inp := { s.inp with cmdLen := v.extractLsb' 0 8 } }
    ∧ readWindow 0x14 s = s.inp.cmdLen.setWidth 32
    ∧ exec (.wr 0x18 v) s = .next { s with inp := { s.inp with cmd := v.extractLsb' 0 8 } }
    ∧ readWindow 0x18 s = s.inp.cmd.setWidth 32
    ∧ exec (.wr 0x1C v) s = .next { s with inp := { s.inp with dataLen := v.extractLsb' 0 8 } }
    ∧ readWindow 0x1C s = s.inp.dataLen.setWidth 32
    ∧ ∀ k : Fin 8,
      exec (.wr (BitVec.ofNat 8 (0x20 + 4 * k.val)) v) s =
        .next { s with inp := { s.inp with data := s.inp.data.set k (v.extractLsb' 0 8) } }
      ∧ readWindow (BitVec.ofNat 8 (0x20 + 4 * k.val)) s = s.inp.data[k].setWidth 32

/-- R52: a WR at a multiple of 4 completes. A write of CMD performs the operation. Any other write changes at most the
staging area; every other word of the window reads as before; an RW register then reads the value written, masked to
its field; an RO register or a reserved offset changes nothing. -/
def Obligations.WriteChangesOnlyItsRegister : Prop :=
  ∀ (off : Byte) (v : Word) (s : State), off.toNat % 4 = 0 →
    (off = 0 → exec (.wr off v) s = exec (decode (.cmd32 v)) s ∧ ∃ t, exec (.wr off v) s = .next t)
    ∧ (off ≠ 0 → ∃ i : Inputs, exec (.wr off v) s = .next { s with inp := i }
      ∧ (∀ off' : Byte, off'.toNat % 4 = 0 → off' ≠ off → readWindow off' { s with inp := i } = readWindow off' s)
      ∧ (off.toNat = 0x08 → readWindow off { s with inp := i } = v &&& 0x00000001)
      ∧ (off.toNat = 0x10 → readWindow off { s with inp := i } = v)
      ∧ (0x0C ≤ off.toNat → off.toNat ≤ 0x3C → off.toNat ≠ 0x10 →
        readWindow off { s with inp := i } = v &&& 0x000000FF)
      ∧ (off.toNat = 0x04 ∨ 0x40 ≤ off.toNat → i = s.inp))

/-- An RD (20_memory.md, R53) at a multiple of 4 completes, appends the register's value to the host's record
(log 6) and changes nothing else; its data field is ignored; the same read again returns the same value. -/
def Obligations.ReadHasNoSideEffect : Prop :=
  ∀ (off : Byte) (d d' : Word) (s : State), off.toNat % 4 = 0 →
    exec (.rd off d) s = .next { s with reads := s.reads ++ [readWindow off s] }
    ∧ exec (.rd off d') { s with reads := s.reads ++ [readWindow off s] }
      = .next { s with reads := s.reads ++ [readWindow off s, readWindow off s] }

/-- R54 and R185: an access whose size is not 4 bytes or whose offset is not a multiple of 4 is refused with a bus
access fault that names the access; there is no next state, so no state of the FPK changes and no data is returned. WR
and RD words with such an offset are refused so too. Every other access completes. -/
def Obligations.BadAccessFaults : Prop :=
  (∀ (a : Access) (s : State), (a.size ≠ 4 ∨ a.off.toNat % 4 ≠ 0) →
    portAccess a s = .fault (.busAccess a.write a.size a.off))
  ∧ (∀ (off : Byte) (d : Word) (s : State), off.toNat % 4 ≠ 0 →
    exec (.wr off d) s = .fault (.busAccess true 4 off) ∧ exec (.rd off d) s = .fault (.busAccess false 4 off))
  ∧ ∀ (a : Access) (s : State), a.size = 4 → a.off.toNat % 4 = 0 → ∃ t, portAccess a s = .next t

/-- A host program whose next access is refused ends at it, the fault kept, in the unchanged state
(70_reset_and_hazards.md, R208; the program queue is the model's, log 1). -/
def Obligations.RefusedAccessEndsRun : Prop :=
  ∀ (s : State) (n : Nat) (r : Fault), s.program ≠ [] → step s = .fault r → runProgram (n + 1) s = .faulted r s

/-- R41: the reserved offsets hold no state: reads return 0 and writes are ignored; an RD of one changes no state of
the FPK. -/
def Obligations.ReservedOffsets : Prop :=
  ∀ (off : Byte) (v : Word) (s : State), off.toNat % 4 = 0 → (off = 0x4C ∨ 0x88 ≤ off.toNat) →
    readWindow off s = 0 ∧ exec (.wr off v) s = .next s ∧ ∃ t, exec (.rd off v) s = .next t ∧ s.SameFpk t

/-- Every word of the window is in the table of 10_state.md section 2 exactly once (R23): the offsets of the registers
are distinct multiples of 4, and the offsets that name no register are 0x4C and 0x88 to 0xFC. -/
def Obligations.WindowTableIsExact : Prop :=
  (∀ r : Reg, (regOffset r).toNat % 4 = 0 ∧ regAt (regOffset r) = some r)
  ∧ (∀ (off : Byte) (r : Reg), off.toNat % 4 = 0 → regAt off = some r → off = regOffset r)
  ∧ ∀ off : Byte, off.toNat % 4 = 0 → (regAt off = none ↔ (off = 0x4C ∨ 0x88 ≤ off.toNat))

/-- R34 to R37: the frame registers show the held frame, right-aligned, the first element at the highest bit of the
field, and read 0 when no frame is held and at reset. -/
def Obligations.FrameRegistersShowFrame : Prop :=
  (∀ s : State, s.frame = none →
    readWindow 0x40 s = 0 ∧ readWindow 0x44 s = 0 ∧ readWindow 0x48 s = 0
    ∧ ∀ k : Fin 8, readWindow (BitVec.ofNat 8 (0x50 + 4 * k.val)) s = 0)
  ∧ (∀ (s : State) (F : Frame), s.frame = some F →
    readWindow 0x40 s = (if F.variant then 1 else 0)
    ∧ readWindow 0x44 s = BitVec.ofNat 32 (val F.arb)
    ∧ readWindow 0x48 s = BitVec.ofNat 32 (val F.ccf)
    ∧ ∀ k : Fin 8, readWindow (BitVec.ofNat 8 (0x50 + 4 * k.val)) s = F.data[k].setWidth 32)
  ∧ (∀ (s : State) (F : Frame) (L : Nat), s.frame = some F → F.Wf → L = (if F.variant then 26 else 11) →
    (∀ i < L, some ((readWindow 0x44 s).getLsbD (L - 1 - i)) = F.arb[i]?)
    ∧ (∀ k, L ≤ k → (readWindow 0x44 s).getLsbD k = false)
    ∧ some ((readWindow 0x48 s).getLsbD 5) = F.ccf[0]?
    ∧ (readWindow 0x48 s).getLsbD 4 = false
    ∧ (∀ i < 4, some ((readWindow 0x48 s).getLsbD (3 - i)) = F.ccf[2 + i]?)
    ∧ ∀ k, 6 ≤ k → (readWindow 0x48 s).getLsbD k = false)
  ∧ readWindow 0x40 State.reset = 0 ∧ readWindow 0x44 State.reset = 0 ∧ readWindow 0x48 State.reset = 0
  ∧ ∀ k : Fin 8, readWindow (BitVec.ofNat 8 (0x50 + 4 * k.val)) State.reset = 0

/-- R38 and R39: CRC shows the checksum in bits [14:0], and 0 without one; a checksum of 0 is a real one, told apart by
CRC_VALID. SER_LEN shows the length of the serialization, 107 or 122 in every state of the invariant, and 0 without
one. Both read 0 at reset. -/
def Obligations.CrcAndLengthRegisters : Prop :=
  (∀ s : State, s.crc = none → readWindow 0x70 s = 0)
  ∧ (∀ (s : State) (c : Crc), s.crc = some c →
    (readWindow 0x70 s).extractLsb' 0 15 = c ∧ (readWindow 0x70 s).extractLsb' 15 17 = 0)
  ∧ (∃ s : State, s.Inv ∧ s.crc = some 0 ∧ readWindow 0x70 s = 0 ∧ (readWindow 0x04 s).getLsbD 1 = true)
  ∧ (∀ s : State, s.ser = none → readWindow 0x74 s = 0)
  ∧ (∀ (s : State) (b : BitSeq), s.Inv → s.ser = some b →
    (readWindow 0x74 s).toNat = b.length ∧ (b.length = 107 ∨ b.length = 122))
  ∧ readWindow 0x70 State.reset = 0 ∧ readWindow 0x74 State.reset = 0

/-- R40: bit `31 - m` of SER_W_j is element `32j + m` of the serialization, 0 past its end, and 0 without one; stream
bit 0 is bit 31 of SER_W_0; the 128-bit window holds every serialized frame; SER_W_j reads 0 at reset. -/
def Obligations.SerializedWordsReadout : Prop :=
  (∀ (s : State) (j : Fin 4), s.ser = none → readWindow (BitVec.ofNat 8 (0x78 + 4 * j.val)) s = 0)
  ∧ (∀ (s : State) (b : BitSeq) (j : Fin 4) (m : Nat), s.ser = some b → m < 32 →
    (∀ h : 32 * j.val + m < b.length,
      (readWindow (BitVec.ofNat 8 (0x78 + 4 * j.val)) s).getLsbD (31 - m) = b[32 * j.val + m])
    ∧ (b.length ≤ 32 * j.val + m →
      (readWindow (BitVec.ofNat 8 (0x78 + 4 * j.val)) s).getLsbD (31 - m) = false))
  ∧ (∀ (cfg : Config) (F : Frame), F.Wf → (serializeFrame cfg F).length ≤ 128)
  ∧ ∀ j : Fin 4, readWindow (BitVec.ofNat 8 (0x78 + 4 * j.val)) State.reset = 0

/-- Idempotency (20_memory.md, R56): writing a register other than CMD twice with the same value leaves the state of
one write; a BUILD after BUILD and CHECKSUM drops the checksum, so CMD writes are not idempotent in general. -/
def Obligations.RegisterWritesAreIdempotent : Prop :=
  (∀ (off : Byte) (v : Word) (s : State), off.toNat % 4 = 0 → off ≠ 0 →
    ∃ t, exec (.wr off v) s = .next t ∧ exec (.wr off v) t = .next t)
  ∧ ∃ s t u w : State, exec (.wr 0 1) s = .next t ∧ exec (.wr 0 2) t = .next u ∧ exec (.wr 0 1) u = .next w
    ∧ (readWindow 0x04 u).getLsbD 1 = true ∧ (readWindow 0x04 w).getLsbD 1 = false
end

