-- ==== Sys2Proof/Laws/Bits.lean ====
section
/-! SUPPORT. Bit sequences: lengths, elements, and the value of a sequence (spec/00_scope.md R10). -/

namespace Sys2Proof.Machine

@[simp] theorem seqMsb_zero {n : Nat} (v : BitVec n) : seqMsb v 0 = [] := rfl

@[simp] theorem seqMsb_succ {n : Nat} (v : BitVec n) (L : Nat) :
    seqMsb v (L + 1) = v.getLsbD L :: seqMsb v L := rfl

@[simp] theorem seqMsb_length {n : Nat} (v : BitVec n) (L : Nat) : (seqMsb v L).length = L := by
  induction L with
  | zero => rfl
  | succ L ih => simp [ih]

/-- Element `i` of `seq_msb(v, L)` is bit `L - 1 - i`. -/
theorem seqMsb_getElem? {n : Nat} (v : BitVec n) (L i : Nat) (h : i < L) :
    (seqMsb v L)[i]? = some (v.getLsbD (L - 1 - i)) := by
  induction L generalizing i with
  | zero => omega
  | succ L ih =>
    cases i with
    | zero => simp
    | succ i =>
      simp only [seqMsb_succ, List.getElem?_cons_succ]
      rw [ih i (by omega)]
      congr 2
      omega

/-- Two vectors that agree below `L` have the same sequence. -/
theorem seqMsb_congr {n m : Nat} (v : BitVec n) (w : BitVec m) (L : Nat)
    (h : ∀ k < L, v.getLsbD k = w.getLsbD k) : seqMsb v L = seqMsb w L := by
  induction L with
  | zero => rfl
  | succ L ih => simp [h L (by omega), ih fun k hk => h k (by omega)]

@[simp] theorem ones_length (n : Nat) : (ones n).length = n := by simp [ones]

@[simp] theorem val_nil : val [] = 0 := rfl

@[simp] theorem val_cons (b : Bit) (s : BitSeq) : val (b :: s) = b.toNat * 2 ^ s.length + val s := rfl

theorem val_lt (s : BitSeq) : val s < 2 ^ s.length := by
  induction s with
  | nil => simp
  | cons b s ih =>
    simp only [val_cons, List.length_cons, Nat.pow_succ]
    cases b <;> simp <;> omega

/-- Bit `k` of `val(s)` is element `len(s) - 1 - k`. -/
theorem val_testBit (s : BitSeq) (k : Nat) :
    (val s).testBit k = (decide (k < s.length) && s.getD (s.length - 1 - k) false) := by
  induction s with
  | nil => simp
  | cons b s ih =>
    have hlt := val_lt s
    have hform : val (b :: s) = 2 ^ s.length * b.toNat + val s := by rw [val_cons, Nat.mul_comm]
    rw [hform, Nat.testBit_two_pow_mul_add b.toNat hlt, ih]
    by_cases hk : k < s.length
    · have h1 : (b :: s).length - 1 - k = (s.length - 1 - k) + 1 := by simp only [List.length_cons]; omega
      rw [h1, List.getD_cons_succ]
      simp [hk, Nat.lt_succ_of_lt hk]
    · by_cases hk' : k = s.length
      · subst hk'
        cases b <;> simp
      · have : ¬ k < s.length + 1 := by omega
        have h0 : b.toNat.testBit (k - s.length) = false := by
          apply Nat.testBit_lt_two_pow
          have : 2 ≤ 2 ^ (k - s.length) := by
            calc 2 = 2 ^ 1 := rfl
              _ ≤ _ := Nat.pow_le_pow_right (by omega) (by omega)
          have := Bool.toNat_lt b; omega
        simp [hk, this, h0]

/-- A register that shows a sequence of at most 32 bits shows it right-aligned, its first element at bit
`len(s) - 1`. -/
theorem seqWord_getLsbD (s : BitSeq) (hs : s.length ≤ 32) (k : Nat) :
    (seqWord s).getLsbD k = (decide (k < s.length) && s.getD (s.length - 1 - k) false) := by
  unfold seqWord
  rw [BitVec.getLsbD_ofNat, val_testBit]
  by_cases hk : k < s.length
  · have : k < 32 := by omega
    simp [hk, this]
  · simp [hk]

/-- Bit `31 - m` of SER_W_j is element `32j + m`, 0 past the end (spec/10_state.md R40). -/
theorem serWord_getLsbD (s : BitSeq) (j k : Nat) (hk : k < 32) :
    (serWord s j).getLsbD k = s.getD (32 * j + (31 - k)) false := by
  unfold serWord
  rw [seqWord_getLsbD _ (by simp)]
  simp only [List.length_map, List.length_range, hk, decide_true, Bool.true_and]
  rw [List.getD_eq_getElem?_getD, List.getElem?_map, List.getElem?_range (by omega)]
  simp

/-- A byte taken most significant bit first and read back is the byte. -/
theorem seqWord_seqMsb_getLsbD {n : Nat} (v : BitVec n) (L : Nat) (hL : L ≤ 32) (k : Nat) :
    (seqWord (seqMsb v L)).getLsbD k = (decide (k < L) && v.getLsbD k) := by
  rw [seqWord_getLsbD _ (by simpa using hL), seqMsb_length]
  by_cases hk : k < L
  · rw [List.getD_eq_getElem?_getD, seqMsb_getElem? v L _ (by omega)]
    have : L - 1 - (L - 1 - k) = k := by omega
    simp [hk, this]
  · simp [hk]

@[simp] theorem bytesBits_nil : bytesBits [] = [] := rfl

@[simp] theorem bytesBits_cons (b : Byte) (d : List Byte) : bytesBits (b :: d) = seqMsb b 8 ++ bytesBits d := rfl

@[simp] theorem bytesBits_length (d : List Byte) : (bytesBits d).length = 8 * d.length := by
  induction d with
  | nil => rfl
  | cons b d ih => simp [ih]; omega

/-- Element `8k + i` of the data bits is bit `7 - i` of byte `k` (spec/41_checksum.md R131). -/
theorem bytesBits_getElem? (d : List Byte) (k i : Nat) (hk : k < d.length) (hi : i < 8) :
    (bytesBits d)[8 * k + i]? = some (d[k].getLsbD (7 - i)) := by
  induction d generalizing k with
  | nil => simp at hk
  | cons b d ih =>
    rw [bytesBits_cons]
    cases k with
    | zero =>
      rw [List.getElem?_append_left (by simp; omega)]
      rw [Nat.mul_zero, Nat.zero_add, seqMsb_getElem? _ _ _ hi]
      rfl
    | succ k =>
      rw [List.getElem?_append_right (by simp; omega)]
      have : 8 * (k + 1) + i - (seqMsb b 8).length = 8 * k + i := by simp; omega
      rw [this, ih k (by simpa using hk)]
      rfl

end Sys2Proof.Machine
end

