-- ==== Sys2Proof/Laws/Crc.lean ====
section
/-! SUPPORT. The CRC-15 engine, the frame stream and the serialized frame (spec/41_checksum.md, 42_serialize.md). -/

namespace Sys2Proof.Machine

@[simp] theorem crc15Bits_nil (cfg : Config) : crc15Bits cfg [] = cfg.crcInit := rfl

/-- The engine consumes its input one element at a time, element 0 first (R132). -/
theorem crc15Bits_append (cfg : Config) (s t : BitSeq) :
    crc15Bits cfg (s ++ t) = t.foldl (crcStep cfg.crcPoly) (crc15Bits cfg s) := by
  simp [crc15Bits, List.foldl_append]

theorem crc15Bits_snoc (cfg : Config) (s : BitSeq) (b : Bit) :
    crc15Bits cfg (s ++ [b]) = crcStep cfg.crcPoly (crc15Bits cfg s) b := by
  simp [crc15Bits_append]

/-- One turn as a sum: the shifted register plus the polynomial or nothing. -/
theorem crcStep_eq (p c : Crc) (b : Bit) :
    crcStep p c b = (c <<< 1) ^^^ (if Bool.xor b (c.getLsbD 14) then p else 0) := by
  unfold crcStep
  split <;> simp_all

/-- Adding the polynomial twice adds nothing, so conditional additions combine by the sum of their conditions. -/
theorem conditional_xor (A B P : Crc) (x y : Bit) :
    (A ^^^ B) ^^^ (if Bool.xor x y then P else 0) = (A ^^^ if x then P else 0) ^^^ (B ^^^ if y then P else 0) := by
  ext i hi
  cases x <;> cases y <;> simp <;> cases A[i] <;> cases B[i] <;> cases P[i] <;> rfl

/-- One turn is additive in the register and the bit together. -/
theorem crcStep_xor (p c d : Crc) (a b : Bit) :
    crcStep p (c ^^^ d) (Bool.xor a b) = crcStep p c a ^^^ crcStep p d b := by
  simp only [crcStep_eq, BitVec.getLsbD_xor, BitVec.shiftLeft_xor_distrib]
  rw [← conditional_xor]
  congr 2
  simp only [Bool.xor_assoc, Bool.xor_left_comm]

theorem stream_length (F : Frame) : (stream F).length = 1 + F.arb.length + F.ccf.length + 64 := by
  simp [stream]
  omega

theorem serializeFrame_length (cfg : Config) (F : Frame) :
    (serializeFrame cfg F).length = (stream F).length + 25 := by
  simp [serializeFrame, crcWidth, eofLen]

end Sys2Proof.Machine
end

