-- ==== Sys2Proof/Laws/Decode.lean ====
section
/-! SUPPORT. The fields of the two encoded forms (spec/30_encoding.md R70): each field of a word put together is the
field it was put together from, and a word is its fields put together. -/

namespace Sys2Proof

@[simp] theorem opField_commandWord (op : BitVec 4) (u : BitVec 28) : opField (commandWord op u) = op := by
  unfold opField commandWord
  ext i hi
  rw [BitVec.getElem_extractLsb', BitVec.getLsbD_append]
  simp [hi]

@[simp] theorem ignField_commandWord (op : BitVec 4) (u : BitVec 28) : ignField (commandWord op u) = u := by
  unfold ignField commandWord
  ext i hi
  rw [BitVec.getElem_extractLsb', BitVec.getLsbD_append]
  simp [hi]

theorem commandWord_fields (w : Word) : commandWord (opField w) (ignField w) = w := by
  unfold opField ignField commandWord
  apply BitVec.eq_of_getLsbD_eq
  intro i hi
  rw [BitVec.getLsbD_append, BitVec.getLsbD_extractLsb', BitVec.getLsbD_extractLsb']
  by_cases h : i < 4
  · simp [h]
  · have h2 : 4 + (i - 4) = i := by omega
    have h3 : i - 4 < 28 := by omega
    simp [h, h2, h3]

@[simp] theorem hawWrite_accessWord (b : BitVec 1) (off : Byte) (d : Word) :
    hawWrite (accessWord b off d) = b.getLsbD 0 := by
  unfold hawWrite accessWord
  rw [BitVec.getLsbD_append, BitVec.getLsbD_append]
  simp

@[simp] theorem hawOff_accessWord (b : BitVec 1) (off : Byte) (d : Word) : hawOff (accessWord b off d) = off := by
  unfold hawOff accessWord
  ext i hi
  rw [BitVec.getElem_extractLsb', BitVec.getLsbD_append, BitVec.getLsbD_append]
  simp [hi]

@[simp] theorem hawData_accessWord (b : BitVec 1) (off : Byte) (d : Word) : hawData (accessWord b off d) = d := by
  unfold hawData accessWord
  ext i hi
  rw [BitVec.getElem_extractLsb', BitVec.getLsbD_append]
  simp [hi]

theorem accessWord_fields (w : BitVec 41) :
    accessWord (BitVec.ofBool (hawWrite w)) (hawOff w) (hawData w) = w := by
  unfold accessWord hawWrite hawOff hawData
  apply BitVec.eq_of_getLsbD_eq
  intro i hi
  rw [BitVec.getLsbD_append, BitVec.getLsbD_append, BitVec.getLsbD_extractLsb', BitVec.getLsbD_extractLsb']
  by_cases h : i < 32
  · simp [h]
  · by_cases h2 : i - 32 < 8
    · have h3 : 32 + (i - 32) = i := by omega
      simp [h, h2, h3]
    · have h3 : i = 40 := by omega
      subst h3
      simp

/-- The sixteen values of OP. -/
theorem op_cases (op : BitVec 4) :
    op = 0 ∨ op = 1 ∨ op = 2 ∨ op = 3 ∨ op = 4 ∨ op = 5 ∨ op = 6 ∨ op = 7 ∨ op = 8 ∨ op = 9 ∨ op = 10 ∨ op = 11
      ∨ op = 12 ∨ op = 13 ∨ op = 14 ∨ op = 15 := by
  revert op
  decide

end Sys2Proof
end

