-- ==== Sys2Proof/Laws/Flags.lean ====
section
/-! SUPPORT. STATUS bit by bit (spec/10_state.md R25). -/

namespace Sys2Proof.Machine

theorem bitWord_getLsbD (b : Bit) (i : Nat) : (bitWord b).getLsbD i = (decide (i = 0) && b) := by
  cases b <;> simp [bitWord]

/-- Bit `i` of STATUS, from the field it lies in. -/
theorem statusWord_getLsbD (s : State) (i : Nat) (hi : i < 32) :
    (statusWord s).getLsbD i =
      if i = 0 then frameValid s else if i = 1 then crcValid s else if i = 2 then serValid s
      else if i = 3 then errFlag s else if i < 8 then (errCodeBits s.status.code).getLsbD (i - 4)
      else if i < 10 then (errFieldBits s.status.field).getLsbD (i - 8) else if i < 16 then false
      else if i < 24 then s.status.expected.getLsbD (i - 16) else s.status.actual.getLsbD (i - 24) := by
  unfold statusWord
  simp only [BitVec.getLsbD_or, BitVec.getLsbD_shiftLeft, BitVec.getLsbD_setWidth, bitWord_getLsbD]
  generalize errCodeBits s.status.code = z
  generalize errFieldBits s.status.field = f
  generalize s.status.expected = y
  interval_cases i <;> simp [BitVec.getLsbD_of_ge]

end Sys2Proof.Machine
end

