-- ==== Sys2Proof/Laws/State.lean ====
section
/-! SUPPORT. One lemma per field per update of the state, so that no proof unfolds a record update. -/

namespace Sys2Proof.Machine

@[simp] theorem State.setInp_inp (i : Inputs) (s : State) : (s.setInp i).inp = i := rfl
@[simp] theorem State.setInp_frame (i : Inputs) (s : State) : (s.setInp i).frame = s.frame := rfl
@[simp] theorem State.setInp_crc (i : Inputs) (s : State) : (s.setInp i).crc = s.crc := rfl
@[simp] theorem State.setInp_ser (i : Inputs) (s : State) : (s.setInp i).ser = s.ser := rfl
@[simp] theorem State.setInp_status (i : Inputs) (s : State) : (s.setInp i).status = s.status := rfl
@[simp] theorem State.setInp_config (i : Inputs) (s : State) : (s.setInp i).config = s.config := rfl
@[simp] theorem State.setInp_program (i : Inputs) (s : State) : (s.setInp i).program = s.program := rfl
@[simp] theorem State.setInp_reads (i : Inputs) (s : State) : (s.setInp i).reads = s.reads := rfl

@[simp] theorem State.setResults_inp (f : Option Frame) (c : Option Crc) (b : Option BitSeq) (s : State) : (s.setResults f c b).inp = s.inp := rfl
@[simp] theorem State.setResults_frame (f : Option Frame) (c : Option Crc) (b : Option BitSeq) (s : State) : (s.setResults f c b).frame = f := rfl
@[simp] theorem State.setResults_crc (f : Option Frame) (c : Option Crc) (b : Option BitSeq) (s : State) : (s.setResults f c b).crc = c := rfl
@[simp] theorem State.setResults_ser (f : Option Frame) (c : Option Crc) (b : Option BitSeq) (s : State) : (s.setResults f c b).ser = b := rfl
@[simp] theorem State.setResults_status (f : Option Frame) (c : Option Crc) (b : Option BitSeq) (s : State) : (s.setResults f c b).status = s.status := rfl
@[simp] theorem State.setResults_config (f : Option Frame) (c : Option Crc) (b : Option BitSeq) (s : State) : (s.setResults f c b).config = s.config := rfl
@[simp] theorem State.setResults_program (f : Option Frame) (c : Option Crc) (b : Option BitSeq) (s : State) : (s.setResults f c b).program = s.program := rfl
@[simp] theorem State.setResults_reads (f : Option Frame) (c : Option Crc) (b : Option BitSeq) (s : State) : (s.setResults f c b).reads = s.reads := rfl

@[simp] theorem State.setStatus_inp (st : Status) (s : State) : (s.setStatus st).inp = s.inp := rfl
@[simp] theorem State.setStatus_frame (st : Status) (s : State) : (s.setStatus st).frame = s.frame := rfl
@[simp] theorem State.setStatus_crc (st : Status) (s : State) : (s.setStatus st).crc = s.crc := rfl
@[simp] theorem State.setStatus_ser (st : Status) (s : State) : (s.setStatus st).ser = s.ser := rfl
@[simp] theorem State.setStatus_status (st : Status) (s : State) : (s.setStatus st).status = st := rfl
@[simp] theorem State.setStatus_config (st : Status) (s : State) : (s.setStatus st).config = s.config := rfl
@[simp] theorem State.setStatus_program (st : Status) (s : State) : (s.setStatus st).program = s.program := rfl
@[simp] theorem State.setStatus_reads (st : Status) (s : State) : (s.setStatus st).reads = s.reads := rfl

@[simp] theorem State.setProgram_inp (p : List HostInput) (s : State) : (s.setProgram p).inp = s.inp := rfl
@[simp] theorem State.setProgram_frame (p : List HostInput) (s : State) : (s.setProgram p).frame = s.frame := rfl
@[simp] theorem State.setProgram_crc (p : List HostInput) (s : State) : (s.setProgram p).crc = s.crc := rfl
@[simp] theorem State.setProgram_ser (p : List HostInput) (s : State) : (s.setProgram p).ser = s.ser := rfl
@[simp] theorem State.setProgram_status (p : List HostInput) (s : State) : (s.setProgram p).status = s.status := rfl
@[simp] theorem State.setProgram_config (p : List HostInput) (s : State) : (s.setProgram p).config = s.config := rfl
@[simp] theorem State.setProgram_program (p : List HostInput) (s : State) : (s.setProgram p).program = p := rfl
@[simp] theorem State.setProgram_reads (p : List HostInput) (s : State) : (s.setProgram p).reads = s.reads := rfl

@[simp] theorem State.recordRead_inp (v : Word) (s : State) : (s.recordRead v).inp = s.inp := rfl
@[simp] theorem State.recordRead_frame (v : Word) (s : State) : (s.recordRead v).frame = s.frame := rfl
@[simp] theorem State.recordRead_crc (v : Word) (s : State) : (s.recordRead v).crc = s.crc := rfl
@[simp] theorem State.recordRead_ser (v : Word) (s : State) : (s.recordRead v).ser = s.ser := rfl
@[simp] theorem State.recordRead_status (v : Word) (s : State) : (s.recordRead v).status = s.status := rfl
@[simp] theorem State.recordRead_config (v : Word) (s : State) : (s.recordRead v).config = s.config := rfl
@[simp] theorem State.recordRead_program (v : Word) (s : State) : (s.recordRead v).program = s.program := rfl
@[simp] theorem State.recordRead_reads (v : Word) (s : State) : (s.recordRead v).reads = s.reads ++ [v] := rfl

@[simp] theorem raise_inp (e : OpError) (s : State) : (raise e s).inp = s.inp := rfl
@[simp] theorem raise_frame (e : OpError) (s : State) : (raise e s).frame = s.frame := rfl
@[simp] theorem raise_crc (e : OpError) (s : State) : (raise e s).crc = s.crc := rfl
@[simp] theorem raise_ser (e : OpError) (s : State) : (raise e s).ser = s.ser := rfl
@[simp] theorem raise_status (e : OpError) (s : State) : (raise e s).status = errorStatus e := rfl
@[simp] theorem raise_config (e : OpError) (s : State) : (raise e s).config = s.config := rfl
@[simp] theorem raise_program (e : OpError) (s : State) : (raise e s).program = s.program := rfl
@[simp] theorem raise_reads (e : OpError) (s : State) : (raise e s).reads = s.reads := rfl

@[simp] theorem ok_inp (s : State) : (ok s).inp = s.inp := rfl
@[simp] theorem ok_frame (s : State) : (ok s).frame = s.frame := rfl
@[simp] theorem ok_crc (s : State) : (ok s).crc = s.crc := rfl
@[simp] theorem ok_ser (s : State) : (ok s).ser = s.ser := rfl
@[simp] theorem ok_status (s : State) : (ok s).status = Status.clear := rfl
@[simp] theorem ok_config (s : State) : (ok s).config = s.config := rfl
@[simp] theorem ok_program (s : State) : (ok s).program = s.program := rfl
@[simp] theorem ok_reads (s : State) : (ok s).reads = s.reads := rfl

@[simp] theorem storeReg_inp (r : Reg) (v : Word) (s : State) : (storeReg r v s).inp = storeInput r v s.inp := rfl
@[simp] theorem storeReg_frame (r : Reg) (v : Word) (s : State) : (storeReg r v s).frame = s.frame := rfl
@[simp] theorem storeReg_crc (r : Reg) (v : Word) (s : State) : (storeReg r v s).crc = s.crc := rfl
@[simp] theorem storeReg_ser (r : Reg) (v : Word) (s : State) : (storeReg r v s).ser = s.ser := rfl
@[simp] theorem storeReg_status (r : Reg) (v : Word) (s : State) : (storeReg r v s).status = s.status := rfl
@[simp] theorem storeReg_config (r : Reg) (v : Word) (s : State) : (storeReg r v s).config = s.config := rfl
@[simp] theorem storeReg_program (r : Reg) (v : Word) (s : State) : (storeReg r v s).program = s.program := rfl
@[simp] theorem storeReg_reads (r : Reg) (v : Word) (s : State) : (storeReg r v s).reads = s.reads := rfl

@[simp] theorem assertReset_inp (s : State) : (assertReset s).inp = Inputs.reset := rfl
@[simp] theorem assertReset_frame (s : State) : (assertReset s).frame = none := rfl
@[simp] theorem assertReset_crc (s : State) : (assertReset s).crc = none := rfl
@[simp] theorem assertReset_ser (s : State) : (assertReset s).ser = none := rfl
@[simp] theorem assertReset_status (s : State) : (assertReset s).status = Status.clear := rfl
@[simp] theorem assertReset_config (s : State) : (assertReset s).config = s.config := rfl
@[simp] theorem assertReset_program (s : State) : (assertReset s).program = s.program := rfl
@[simp] theorem assertReset_reads (s : State) : (assertReset s).reads = s.reads := rfl

@[simp] theorem pushInput_inp (x : HostInput) (s : State) : (pushInput x s).inp = s.inp := rfl
@[simp] theorem pushInput_frame (x : HostInput) (s : State) : (pushInput x s).frame = s.frame := rfl
@[simp] theorem pushInput_crc (x : HostInput) (s : State) : (pushInput x s).crc = s.crc := rfl
@[simp] theorem pushInput_ser (x : HostInput) (s : State) : (pushInput x s).ser = s.ser := rfl
@[simp] theorem pushInput_status (x : HostInput) (s : State) : (pushInput x s).status = s.status := rfl
@[simp] theorem pushInput_config (x : HostInput) (s : State) : (pushInput x s).config = s.config := rfl
@[simp] theorem pushInput_program (x : HostInput) (s : State) : (pushInput x s).program = x :: s.program := rfl
@[simp] theorem pushInput_reads (x : HostInput) (s : State) : (pushInput x s).reads = s.reads := rfl

/-- A state is its fields. -/
theorem State.ext_fields {s t : State} (h1 : s.inp = t.inp) (h2 : s.frame = t.frame) (h3 : s.crc = t.crc)
    (h4 : s.ser = t.ser) (h5 : s.status = t.status) (h6 : s.config = t.config) (h7 : s.program = t.program)
    (h8 : s.reads = t.reads) : s = t := by
  cases s; cases t; simp_all

@[simp] theorem State.setProgram_self (s : State) : s.setProgram s.program = s := rfl

@[simp] theorem State.setProgram_setProgram (p q : List HostInput) (s : State) :
    (s.setProgram p).setProgram q = s.setProgram q := rfl

end Sys2Proof.Machine
end

