-- ==== Sys2Proof/Laws/Ops.lean ====
section
/-! SUPPORT. What each shared operation can do, said once. -/

namespace Sys2Proof.Machine

/-! ## BUILD -/

/-- The width check passes exactly when the three lengths are the fixed widths (spec/40_build.md R102). -/
theorem checkWidths_eq_none (i : Inputs) :
    checkWidths i = none ↔
      i.arbLen.toNat = expectedArbLen i.variant ∧ i.cmdLen.toNat = cmdLen ∧ i.dataLen.toNat = dataBytes := by
  unfold checkWidths
  split_ifs <;> simp_all

/-- What the width check can report: a field, its fixed width, and a length that differs from it. -/
theorem checkWidths_eq_some {i : Inputs} {e : OpError} (h : checkWidths i = some e) :
    (e = .fieldLength .arbitration (BitVec.ofNat 8 (expectedArbLen i.variant)) i.arbLen
        ∧ i.arbLen.toNat ≠ expectedArbLen i.variant)
      ∨ (e = .fieldLength .command 4 i.cmdLen ∧ i.cmdLen.toNat ≠ cmdLen)
      ∨ (e = .fieldLength .data 8 i.dataLen ∧ i.dataLen.toNat ≠ dataBytes) := by
  unfold checkWidths at h
  split_ifs at h with h1 h2 h3
  · exact .inl ⟨(Option.some.inj h).symm, h1⟩
  · exact .inr (.inl ⟨(Option.some.inj h).symm, h2⟩)
  · exact .inr (.inr ⟨(Option.some.inj h).symm, h3⟩)

/-- An assembled frame is well formed (spec/10_state.md R22). -/
theorem assembleFrame_wf (i : Inputs) : (assembleFrame i).Wf := by
  simp [Frame.Wf, assembleFrame, arbitrationSeq, completeCommandField, commandSeq, cmdLen, ccfLen]

/-- The error BUILD raises leaves a consistent status (spec/10_state.md R26; spec/60_exceptions.md R181). -/
theorem checkWidths_consistent {i : Inputs} {e : OpError} (h : checkWidths i = some e) :
    (errorStatus e).Consistent := by
  rcases checkWidths_eq_some h with ⟨rfl, h1⟩ | ⟨rfl, h1⟩ | ⟨rfl, h1⟩
  · refine ⟨fun hc => h1 ?_, .inl ⟨rfl, ?_⟩⟩
    · have := congrArg BitVec.toNat hc
      cases hv : i.variant <;>
        simpa [errorStatus, hv, expectedArbLen, arbLenShort, arbLenExt] using this
    · cases i.variant <;> simp [errorStatus, expectedArbLen, arbLenShort, arbLenExt]
  · exact ⟨fun hc => h1 (congrArg BitVec.toNat hc), .inr (.inl ⟨rfl, rfl⟩)⟩
  · exact ⟨fun hc => h1 (congrArg BitVec.toNat hc), .inr (.inr ⟨rfl, rfl⟩)⟩

/-- BUILD either holds the assembled frame and drops the old derivations, or raises what the check reports. -/
theorem build_cases (s : State) :
    (checkWidths s.inp = none ∧ build s = ok (s.setResults (some (assembleFrame s.inp)) none none))
      ∨ ∃ e, checkWidths s.inp = some e ∧ build s = raise e s := by
  unfold build buildFrame
  cases h : checkWidths s.inp with
  | none => exact .inl ⟨rfl, rfl⟩
  | some e => exact .inr ⟨e, rfl, rfl⟩

/-! ## The five operations of a command -/

/-- What a command can do to a state: one of the five operations of spec/30_encoding.md R71. -/
inductive Operated (s : State) : State → Prop where
  | built : Operated s (build s)
  | checksummed : Operated s (checksum s)
  | serialized : Operated s (serialize s)
  | cleared : Operated s (clearFrame s)
  | reserved : Operated s (reserved s)

/-- A write of CMD performs one of the five operations and ends in a next state. -/
theorem perform_cases (w : Word) (s : State) : ∃ t, perform w s = .next t ∧ Operated s t := by
  unfold perform
  split
  · exact ⟨_, rfl, .reserved⟩
  · exact ⟨_, rfl, .built⟩
  · exact ⟨_, rfl, .checksummed⟩
  · exact ⟨_, rfl, .serialized⟩
  · exact ⟨_, rfl, .cleared⟩
  all_goals exact ⟨_, rfl, .reserved⟩

/-- No operation writes the staging registers, the parameters, the program or the record of reads. -/
theorem Operated.frame {s t : State} (h : Operated s t) :
    t.inp = s.inp ∧ t.config = s.config ∧ t.program = s.program ∧ t.reads = s.reads := by
  cases h with
  | built => rcases build_cases s with ⟨-, h⟩ | ⟨e, -, h⟩ <;> simp [h]
  | checksummed => unfold checksum; split <;> simp
  | serialized => unfold serialize; split <;> simp
  | cleared => simp [clearFrame]
  | reserved => simp [Machine.reserved]

/-! ## The register window -/

/-- The offset column and the slot table of spec/10_state.md R23 agree. -/
theorem regAt_regOffset (r : Reg) : regAt (regOffset r) = some r := by
  cases r with
  | dataIn k => revert k; decide
  | frameData k => revert k; decide
  | serW j => revert j; decide
  | _ => rfl

@[simp] theorem regAt_zero : regAt 0 = some .cmd := rfl

/-- Only offset 0, among the offsets that are multiples of 4, is CMD. -/
theorem regAt_eq_cmd {off : Byte} (ha : off.toNat % 4 = 0) (h : regAt off = some .cmd) : off = 0 := by
  revert ha h
  revert off
  decide

/-- A stored input is what the register then shows, and the reading depends on nothing but the state's fields. -/
theorem memWrite_cases (off : Byte) (v : Word) (s : State) :
    (regAt off = some .cmd ∧ memWrite off v s = perform v s)
      ∨ (∃ r, regAt off = some r ∧ r ≠ .cmd ∧ memWrite off v s = .next (storeReg r v s))
      ∨ (regAt off = none ∧ memWrite off v s = .next s) := by
  unfold memWrite
  cases h : regAt off with
  | none => exact .inr (.inr ⟨rfl, rfl⟩)
  | some r => cases r <;> first | exact .inl ⟨rfl, rfl⟩ | exact .inr (.inl ⟨_, rfl, by simp, rfl⟩)

/-- The port faults, naming the access, exactly when the access is not 4 bytes wide and aligned; otherwise it
writes or reads (spec/20_memory.md R54). -/
theorem portAccess_cases (a : Access) (s : State) :
    (accessAccepted a = false ∧ portAccess a s = .fault (.busAccess a.write a.size a.off))
      ∨ (accessAccepted a = true ∧ a.write = true ∧ portAccess a s = memWrite a.off a.data s)
      ∨ (accessAccepted a = true ∧ a.write = false ∧ portAccess a s = .next (s.recordRead (readWindow a.off s))) := by
  unfold portAccess
  cases h : accessAccepted a <;> cases h2 : a.write <;> simp [memRead]

/-- What an accepted access can do: an operation (an aligned write of offset 0), a store of a staging register, a
write without effect, or a read. -/
theorem portAccess_next {a : Access} {s t : State} (h : portAccess a s = .next t) :
    a.size = 4 ∧ a.off.toNat % 4 = 0 ∧
      ((a.write = true ∧ a.off = 0 ∧ Operated s t)
        ∨ (∃ r, a.write = true ∧ regAt a.off = some r ∧ r ≠ .cmd ∧ t = storeReg r a.data s)
        ∨ (a.write = true ∧ regAt a.off = none ∧ t = s)
        ∨ (a.write = false ∧ t = s.recordRead (readWindow a.off s))) := by
  have hacc : accessAccepted a = true → a.size = 4 ∧ a.off.toNat % 4 = 0 := by
    intro hh
    simpa [accessAccepted] using hh
  rcases portAccess_cases a s with ⟨-, h1⟩ | ⟨h0, hw, h1⟩ | ⟨h0, hw, h1⟩
  · rw [h1] at h; cases h
  · rw [h1] at h
    obtain ⟨hs, ha⟩ := hacc h0
    refine ⟨hs, ha, ?_⟩
    rcases memWrite_cases a.off a.data s with ⟨hr, h2⟩ | ⟨r, hr, hne, h2⟩ | ⟨hr, h2⟩
    · obtain ⟨u, hu, ho⟩ := perform_cases a.data s
      rw [h2, hu] at h
      cases h
      exact .inl ⟨hw, regAt_eq_cmd ha hr, ho⟩
    · rw [h2] at h
      cases h
      exact .inr (.inl ⟨r, hw, hr, hne, rfl⟩)
    · rw [h2] at h
      cases h
      exact .inr (.inr (.inl ⟨hw, hr, rfl⟩))
  · rw [h1] at h
    obtain ⟨hs, ha⟩ := hacc h0
    cases h
    exact ⟨hs, ha, .inr (.inr (.inr ⟨hw, rfl⟩))⟩

/-! ## Instructions and steps -/

/-- A command instruction ends in a next state, by one of the five operations; WR and RD are port accesses. -/
theorem exec_cases (i : Instr) (s : State) :
    (∃ t, exec i s = .next t ∧ Operated s t)
      ∨ (∃ off data, i = .wr off data ∧ exec i s = portAccess ⟨true, 4, off, data⟩ s)
      ∨ (∃ off ign, i = .rd off ign ∧ exec i s = portAccess ⟨false, 4, off, ign⟩ s) := by
  cases i with
  | build u => exact .inl ⟨_, rfl, .built⟩
  | checksum u => exact .inl ⟨_, rfl, .checksummed⟩
  | serialize u => exact .inl ⟨_, rfl, .serialized⟩
  | clear u => exact .inl ⟨_, rfl, .cleared⟩
  | wr off data => exact .inr (.inl ⟨off, data, rfl, rfl⟩)
  | rd off ign => exact .inr (.inr ⟨off, ign, rfl, rfl⟩)
  | _ u => exact .inl ⟨_, rfl, .reserved⟩

/-- What a step can do when it answers a next state. -/
theorem step_cases {s t : State} (h : step s = .next t) :
    (s.program = [] ∧ t = s)
      ∨ ∃ x rest, s.program = x :: rest ∧
        ((∃ w, x = .word w ∧ exec (decode w) (s.setProgram rest) = .next t)
          ∨ (∃ a, x = .access a ∧ portAccess a (s.setProgram rest) = .next t)
          ∨ (x = .reset ∧ t = assertReset (s.setProgram rest))) := by
  cases hp : s.program with
  | nil =>
    have : step s = .next s := by simp [step, nextInput, hp]
    rw [this] at h
    cases h
    exact .inl ⟨rfl, rfl⟩
  | cons x rest =>
    refine .inr ⟨x, rest, rfl, ?_⟩
    cases x with
    | word w => exact .inl ⟨w, rfl, by simpa [step, nextInput, hp] using h⟩
    | access a => exact .inr (.inl ⟨a, rfl, by simpa [step, nextInput, hp] using h⟩)
    | reset =>
      refine .inr (.inr ⟨rfl, ?_⟩)
      have : step s = .next (assertReset (s.setProgram rest)) := by simp [step, nextInput, hp]
      rw [this] at h
      cases h
      rfl

end Sys2Proof.Machine
end

