-- ==== Sys2Proof/Laws/PerInstr.lean ====
section
/-! SUPPORT. A statement for all instructions, one lemma per constructor: the encoded word meets the match and mask of
its row in spec/opcode_table.json. -/

namespace Sys2Proof.Laws.TableRow

/-- The row's mask gives the row's match (spec/opcode_table.json): the mask is 0x0000000F for a CMD32 row and
0x10000000000 for a HAW41 row. -/
def meetsRow (h : HostWord) (m : Nat) : Prop :=
  match h with
  | .cmd32 w => w.toNat &&& 0x0000000F = m
  | .haw41 w => w.toNat &&& 0x10000000000 = m

/-- The match column of the table. -/
def rowMatch : Instr → Nat
  | .build _ => 0x00000001
  | .checksum _ => 0x00000002
  | .serialize _ => 0x00000003
  | .clear _ => 0x00000004
  | .rsvd0 _ => 0x00000000
  | .rsvd5 _ => 0x00000005
  | .rsvd6 _ => 0x00000006
  | .rsvd7 _ => 0x00000007
  | .rsvd8 _ => 0x00000008
  | .rsvd9 _ => 0x00000009
  | .rsvdA _ => 0x0000000A
  | .rsvdB _ => 0x0000000B
  | .rsvdC _ => 0x0000000C
  | .rsvdD _ => 0x0000000D
  | .rsvdE _ => 0x0000000E
  | .rsvdF _ => 0x0000000F
  | .wr _ _ => 0x10000000000
  | .rd _ _ => 0x00000000000

def Statement (i : Instr) : Prop := meetsRow (encode i) (rowMatch i)

theorem commandWord_match (op : BitVec 4) (ign : BitVec 28) :
    (commandWord op ign).toNat &&& 0x0000000F = op.toNat := by
  have h : (commandWord op ign).setWidth 4 = op := by
    ext i hi
    rw [BitVec.getElem_setWidth, commandWord, BitVec.getLsbD_append]
    simp [hi]
  have hm := Nat.and_two_pow_sub_one_eq_mod (commandWord op ign).toNat 4
  rw [show (2 ^ 4 - 1 : Nat) = 0x0000000F from rfl] at hm
  rw [hm, ← BitVec.toNat_setWidth, h]

theorem accessWord_match (b : BitVec 1) (off : Byte) (d : Word) :
    (accessWord b off d).toNat &&& 0x10000000000 = b.toNat * 2 ^ 40 := by
  have h := hawWrite_accessWord b off d
  rw [show (0x10000000000 : Nat) = 2 ^ 40 from rfl, Nat.and_two_pow]
  rw [hawWrite, BitVec.getLsbD] at h
  rw [h]
  rcases BitVec.eq_zero_or_eq_one b with rfl | rfl <;> rfl

theorem build (u : BitVec 28) : Statement (.build u) := commandWord_match 0x1 u
theorem checksum (u : BitVec 28) : Statement (.checksum u) := commandWord_match 0x2 u
theorem serialize (u : BitVec 28) : Statement (.serialize u) := commandWord_match 0x3 u
theorem clear (u : BitVec 28) : Statement (.clear u) := commandWord_match 0x4 u
theorem rsvd0 (u : BitVec 28) : Statement (.rsvd0 u) := commandWord_match 0x0 u
theorem rsvd5 (u : BitVec 28) : Statement (.rsvd5 u) := commandWord_match 0x5 u
theorem rsvd6 (u : BitVec 28) : Statement (.rsvd6 u) := commandWord_match 0x6 u
theorem rsvd7 (u : BitVec 28) : Statement (.rsvd7 u) := commandWord_match 0x7 u
theorem rsvd8 (u : BitVec 28) : Statement (.rsvd8 u) := commandWord_match 0x8 u
theorem rsvd9 (u : BitVec 28) : Statement (.rsvd9 u) := commandWord_match 0x9 u
theorem rsvdA (u : BitVec 28) : Statement (.rsvdA u) := commandWord_match 0xA u
theorem rsvdB (u : BitVec 28) : Statement (.rsvdB u) := commandWord_match 0xB u
theorem rsvdC (u : BitVec 28) : Statement (.rsvdC u) := commandWord_match 0xC u
theorem rsvdD (u : BitVec 28) : Statement (.rsvdD u) := commandWord_match 0xD u
theorem rsvdE (u : BitVec 28) : Statement (.rsvdE u) := commandWord_match 0xE u
theorem rsvdF (u : BitVec 28) : Statement (.rsvdF u) := commandWord_match 0xF u
theorem wr (off : Byte) (d : Word) : Statement (.wr off d) := by
  simp only [Statement, meetsRow, encode, rowMatch, accessWord_match]
  decide
theorem rd (off : Byte) (d : Word) : Statement (.rd off d) := by
  simp only [Statement, meetsRow, encode, rowMatch, accessWord_match]
  decide

end Sys2Proof.Laws.TableRow
end

