-- ==== Sys2Proof/Laws/Window.lean ====
section
/-! SUPPORT. Accepted accesses, command writes, and what a register reads after another is written. -/

namespace Sys2Proof.Machine

/-- A WR at a multiple of 4 is `MemWrite`. -/
theorem exec_wr_aligned {off : Byte} (h : off.toNat % 4 = 0) (v : Word) (s : State) :
    exec (.wr off v) s = memWrite off v s := by
  simp [exec, execWr, portAccess, accessAccepted, h]

/-- An RD at a multiple of 4 is `MemRead`. -/
theorem exec_rd_aligned {off : Byte} (h : off.toNat % 4 = 0) (d : Word) (s : State) :
    exec (.rd off d) s = .next (s.recordRead (readWindow off s)) := by
  simp [exec, execRd, portAccess, accessAccepted, h, memRead]

theorem memWrite_zero (v : Word) (s : State) : memWrite 0 v s = perform v s := rfl

/-- `perform` runs the meaning of the row its word decodes to (spec/30_encoding.md R71). -/
theorem exec_decodeCommand (w : Word) (s : State) : exec (decodeCommand w) s = perform w s := by
  unfold decodeCommand perform
  rcases op_cases (opField w) with h | h | h | h | h | h | h | h | h | h | h | h | h | h | h | h <;>
    simp only [h] <;> rfl

/-- `perform` reads OP alone: its outcome, by the value of OP. -/
theorem perform_eq (w : Word) (s : State) :
    perform w s = .next
      (if opField w = 1 then build s else if opField w = 2 then checksum s else if opField w = 3 then serialize s
        else if opField w = 4 then clearFrame s else reserved s) := by
  unfold perform
  rcases op_cases (opField w) with h | h | h | h | h | h | h | h | h | h | h | h | h | h | h | h <;>
    simp only [h] <;> rfl

/-- Registers a write stores to: the RW rows of spec/10_state.md R23. -/
def isStaging : Reg → Bool
  | .variantIn | .arbLenIn | .arbIn | .cmdLenIn | .cmdIn | .dataLenIn | .dataIn _ => true
  | _ => false

/-- The RW registers lie at the offsets 0x08 to 0x3C, VARIANT_IN and ARB_IN at 0x08 and 0x10, CMD at 0. -/
theorem regAt_kind {off : Byte} (h : off.toNat % 4 = 0) {r : Reg} (hr : regAt off = some r) :
    (isStaging r = true ↔ 0x08 ≤ off.toNat ∧ off.toNat ≤ 0x3C) ∧ (r = .cmd ↔ off = 0)
      ∧ (r = .variantIn ↔ off.toNat = 0x08) ∧ (r = .arbIn ↔ off.toNat = 0x10) := by
  have all : ∀ off : Byte, off.toNat % 4 = 0 → ∀ r ∈ regAt off,
      (isStaging r = true ↔ 0x08 ≤ off.toNat ∧ off.toNat ≤ 0x3C) ∧ (r = .cmd ↔ off = 0)
        ∧ (r = .variantIn ↔ off.toNat = 0x08) ∧ (r = .arbIn ↔ off.toNat = 0x10) := by decide
  exact all off h r hr

/-- No offset below 0x4C is reserved. -/
theorem regAt_eq_none_le {off : Byte} (h : regAt off = none) : 0x4C ≤ off.toNat := by
  revert h
  revert off
  decide

/-- A write to a register that is not RW stores nothing. -/
theorem storeInput_of_not_staging {r : Reg} (h : isStaging r = false) (v : Word) (i : Inputs) :
    storeInput r v i = i := by
  cases r <;> first | rfl | cases h

/-- A write to one register changes the reading of no other (spec/20_memory.md R52). -/
theorem readReg_storeReg_of_ne {r r' : Reg} (h : r' ≠ r) (v : Word) (s : State) :
    readReg r' (storeReg r v s) = readReg r' s := by
  cases r <;> cases r' <;> first | rfl | exact absurd rfl h | skip
  rename_i k k'
  simp only [readReg, storeReg_inp, storeInput, Fin.getElem_fin]
  rw [Vector.getElem_set_ne]
  intro hk
  exact h (congrArg Reg.dataIn (Fin.ext hk.symm))

/-- The readings depend on the FPK's state alone, not on the host's side. -/
theorem readWindow_recordRead (off : Byte) (v : Word) (s : State) :
    readWindow off (s.recordRead v) = readWindow off s := by
  unfold readWindow
  split
  · rename_i r hr
    cases r <;> rfl
  · rfl

end Sys2Proof.Machine
end

