-- ==== Sys2Proof/Tests/Slice0.lean ====
section
/-! SUPPORT. Tests. Expected values are those of spec/95_test_vectors.md (V-...), of the worked examples of the rules
named, or of words written out from the encodings of spec/30_encoding.md. -/

namespace Sys2Proof.Tests

open Sys2Proof Sys2Proof.Machine

/-! ## Helpers -/

/-- Reset with staging registers. -/
def staged (v : Bit) (al : Byte) (a : Word) (cl : Byte) (c : Byte) (dl : Byte) (d : Vector Byte 8) : State :=
  { State.reset with inp := ⟨v, al, a, cl, c, dl, d⟩ }

/-- The data bytes D1 of 95_test_vectors.md section 2. -/
def d1 : Vector Byte 8 := #v[0x11, 0x22, 0x33, 0x44, 0x55, 0x66, 0x77, 0x88]

/-- Inputs of V-B1. -/
def vb1 : State := staged false 11 0x123 4 0x8 8 d1

/-- Inputs of V-C6. -/
def vc6 : State := staged true 26 0x1234567 4 0x8 8 #v[1, 2, 3, 4, 5, 6, 7, 8]

/-- The frame of V-B1: arbitration `00100100011`, CCF `001000` (95_test_vectors.md P1). -/
def frameB1 : Frame :=
  ⟨false, [false, false, true, false, false, true, false, false, false, true, true],
    [false, false, true, false, false, false], d1⟩

/-- The frame of V-C4: all zeros but the extension bit. -/
def frameC4 : Frame := ⟨true, List.replicate 26 false, [true, false, false, false, false, false], Vector.replicate 8 0⟩

/-- The state after the BUILD of V-B1. -/
def built : State := { vb1 with frame := some frameB1 }

/-- The state after BUILD, CHECKSUM and SERIALIZE of V-B1 (CRC of V-C2). -/
def serialized : State := { built with crc := some 0x38E4, ser := some (serializeFrame Config.fpk frameB1) }

/-- A state with one host input. -/
def withInput (x : HostInput) (s : State) : State := { s with program := [x] }

def after (o : Host.Outcome State Fault Refusal) : Option State :=
  match o with
  | .next t => some t
  | .fault _ => none
  | .refused _ => none

def faultOf (o : Host.Outcome State Fault Refusal) : Option Fault :=
  match o with
  | .next _ => none
  | .fault r => some r
  | .refused _ => none

/-- What a window word reads after an instruction. -/
def readAfter (i : Instr) (s : State) (off : Byte) : Option Word := (after (exec i s)).map (readWindow off)

/-! ## WellFormed: each check refuses an ill-formed term -/

theorem test_wf_refuses_dirty_upper_bits : (Instr.build 0x0000001).wellFormed = false := by decide
theorem test_wf_refuses_dirty_upper_bits_reserved : (Instr.rsvdF 0x8000000).wellFormed = false := by decide
theorem test_wf_refuses_read_data : (Instr.rd 0x70 0x1).wellFormed = false := by decide
theorem test_wf_refuses_misaligned_offset : (Instr.rd 0x06 0x0).wellFormed = false := by decide
theorem test_wf_refuses_reserved_4c : (Instr.wr 0x4C 0x0).wellFormed = false := by decide
theorem test_wf_refuses_reserved_88 : (Instr.wr 0x88 0x0).wellFormed = false := by decide
theorem test_wf_accepts_r77 : (Instr.wr 0x00 0x1).wellFormed = true ∧ (Instr.wr 0x10 0x123).wellFormed = true
    ∧ (Instr.rd 0x70 0x0).wellFormed = true ∧ (Instr.build 0).wellFormed = true := by decide

/-! ## Decode: a word of every row (30_encoding.md R70, R71) -/

theorem test_decode_build : decodeTableWord 32 0x00000001 = some (.build 0x0000000) := by decide
theorem test_decode_checksum : decodeTableWord 32 0x00000002 = some (.checksum 0x0000000) := by decide
theorem test_decode_serialize : decodeTableWord 32 0x00000003 = some (.serialize 0x0000000) := by decide
theorem test_decode_clear : decodeTableWord 32 0x00000004 = some (.clear 0x0000000) := by decide
theorem test_decode_rsvd0 : decodeTableWord 32 0x00000000 = some (.rsvd0 0x0000000) := by decide
theorem test_decode_rsvd5 : decodeTableWord 32 0x00000005 = some (.rsvd5 0x0000000) := by decide
theorem test_decode_rsvd6 : decodeTableWord 32 0x00000006 = some (.rsvd6 0x0000000) := by decide
theorem test_decode_rsvd7 : decodeTableWord 32 0x00000007 = some (.rsvd7 0x0000000) := by decide
theorem test_decode_rsvd8 : decodeTableWord 32 0x00000008 = some (.rsvd8 0x0000000) := by decide
theorem test_decode_rsvd9 : decodeTableWord 32 0x00000009 = some (.rsvd9 0x0000000) := by decide
theorem test_decode_rsvdA : decodeTableWord 32 0x0000000A = some (.rsvdA 0x0000000) := by decide
theorem test_decode_rsvdB : decodeTableWord 32 0x0000000B = some (.rsvdB 0x0000000) := by decide
theorem test_decode_rsvdC : decodeTableWord 32 0x0000000C = some (.rsvdC 0x0000000) := by decide
theorem test_decode_rsvdD : decodeTableWord 32 0x0000000D = some (.rsvdD 0x0000000) := by decide
theorem test_decode_rsvdE : decodeTableWord 32 0x0000000E = some (.rsvdE 0x0000000) := by decide
theorem test_decode_rsvdF : decodeTableWord 32 0x0000000F = some (.rsvdF 0x0000000) := by decide
theorem test_decode_upper_bits : decodeTableWord 32 0xABCDEF11 = some (.build 0xABCDEF1) := by decide
theorem test_decode_wr : decodeTableWord 48 0x11000000123 = some (.wr 0x10 0x00000123) := by decide
theorem test_decode_rd : decodeTableWord 48 0x07000000000 = some (.rd 0x70 0x00000000) := by decide
theorem test_decode_wr_bits :
    decode (.haw41 0b1_00010100_00000000000000000000000000000100) = .wr 0x14 0x00000004 := by decide
theorem test_decode_rd_bits :
    decode (.haw41 0b0_10000100_00000000000000000000000000000000) = .rd 0x84 0x00000000 := by decide
theorem test_decode_refuses_bit_41 : hostWord 48 0x20000000000 = .error (.bitsAboveForm 48 0x20000000000) := by
  decide
theorem test_decode_refuses_long_form : hostWord 56 0x1 = .error (.noSuchForm 56) := by decide
theorem test_encode_build : encode (.build 0) = .cmd32 0x00000001 := by decide
theorem test_encode_wr : encode (.wr 0x00 0x1) = .haw41 0x10000000001 := by decide

/-! ## BUILD (V-B1 to V-B22) -/

/-- V-B1: the frame is held. -/
theorem test_build_vb1 : after (exec (.build 0) vb1) = some built := by decide
/-- V-B21: a failed BUILD keeps the old frame and its checksum: STATUS 0x0308031B. -/
theorem test_build_vb21 :
    readAfter (.build 0) { built with crc := some 0x38E4, inp := { built.inp with dataLen := 3 } } 0x04
      = some 0x0308031B := by decide

/-! ## CHECKSUM (V-C1 to V-C12) -/

/-- V-C2. -/
theorem test_checksum_vc2 : readAfter (.checksum 0) built 0x70 = some 0x000038E4 := by decide +kernel
/-- V-C12. -/
theorem test_checksum_vc12 : readAfter (.checksum 0) State.reset 0x04 = some 0x00000028 := by decide
/-- R137, V-C10: the engine alone, over ASCII "123456789". -/
theorem test_engine_check_value :
    crc15Bits Config.fpk (bytesBits [0x31, 0x32, 0x33, 0x34, 0x35, 0x36, 0x37, 0x38, 0x39]) = 0x059E := by
  decide +kernel

/-! ## SERIALIZE (V-S1 to V-S10) -/

/-- V-S2: SER_W_2, where stream and checksum meet. -/
theorem test_serialize_vs2 : readAfter (.serialize 0) built 0x80 = some 0x9DE21C72 := by decide +kernel
/-- V-S4: SER_W_3 of an extended frame. -/
theorem test_serialize_vs4 :
    readAfter (.serialize 0) { State.reset with frame := some frameC4 } 0x84 = some 0x516CFFC0 := by decide +kernel

/-! ## CLEAR and the reserved opcodes (V-K1 to V-K7) -/

/-- V-K1: the staging registers are kept. -/
theorem test_clear_vk1 : after (exec (.clear 0) serialized) = some vb1 := by decide +kernel
theorem test_rsvd0 : readAfter (.rsvd0 0) built 0x04 = some 0x00000039 := by decide
theorem test_rsvd5 : readAfter (.rsvd5 0) built 0x04 = some 0x00000039 := by decide
theorem test_rsvd6 : readAfter (.rsvd6 0) built 0x04 = some 0x00000039 := by decide
theorem test_rsvd7 : readAfter (.rsvd7 0) built 0x04 = some 0x00000039 := by decide
theorem test_rsvd8 : readAfter (.rsvd8 0) built 0x04 = some 0x00000039 := by decide
theorem test_rsvd9 : readAfter (.rsvd9 0) built 0x04 = some 0x00000039 := by decide
theorem test_rsvdA : readAfter (.rsvdA 0) built 0x04 = some 0x00000039 := by decide
theorem test_rsvdB : readAfter (.rsvdB 0) built 0x04 = some 0x00000039 := by decide
theorem test_rsvdC : readAfter (.rsvdC 0) built 0x04 = some 0x00000039 := by decide
theorem test_rsvdD : readAfter (.rsvdD 0) built 0x04 = some 0x00000039 := by decide
theorem test_rsvdE : readAfter (.rsvdE 0) built 0x04 = some 0x00000039 := by decide
theorem test_rsvdF : readAfter (.rsvdF 0) built 0x04 = some 0x00000039 := by decide

/-! ## WR and RD (V-H1 to V-H10) -/

/-- V-H1. -/
theorem test_wr_vh1 : readAfter (.wr 0x0C 0x1FF) State.reset 0x0C = some 0x000000FF := by decide
/-- V-H10: a staging write does not reach the held frame. -/
theorem test_wr_vh10 : readAfter (.wr 0x10 0xABC) built 0x44 = some 0x00000123 := by decide
/-- R24: a write of CMD performs BUILD. -/
theorem test_wr_cmd : after (exec (.wr 0x00 0x11) vb1) = some built := by decide
/-- P1: RD STATUS after BUILD returns 1. -/
theorem test_rd_status : (after (exec (.rd 0x04 0) built)).map State.reads = some [0x00000001] := by decide
/-- V-H8. -/
theorem test_rd_vh8 : faultOf (exec (.rd 0x06 0) built) = some (.busAccess false 4 0x06) := by decide
/-- V-H9: an 8-bit write at offset 0x10. -/
theorem test_port_vh9 :
    faultOf (step (withInput (.access ⟨true, 1, 0x10, 0⟩) built)) = some (.busAccess true 1 0x10) := by decide

/-! ## Steps -/

theorem test_step_runs_table_word : after (step (vb1.withFetchWord 32 0x00000001)) = some built := by decide
theorem test_step_runs_access_word : after (step (vb1.withFetchWord 48 0x10000000001)) = some built := by decide
theorem test_step_reset_input : after (step (withInput .reset built)) = some State.reset := by decide

/-! ## Assembler (R76, R77) -/

theorem test_assemble_r77 :
    assemble [.build, .wr .arbIn 0x123, .rd .crc]
      = [.word (.haw41 0x10000000001), .word (.haw41 0x11000000123), .word (.haw41 0x07000000000)] := by decide
theorem test_parse_wr : parseLine "  WR ARB_IN, 0x123   ; arbitration".toList = some [.wr .arbIn 0x123] := by decide
theorem test_parse_op : parseLine "OP 7".toList = some [.op 7] ∧ parseLine "OP 16".toList = none
    ∧ parseLine "; only a comment".toList = some [] := by decide
theorem test_parse_ldframe :
    parseLine "LDFRAME 0, 11, 0x7FF, 0xF, 1, 2, 3, 4, 5, 6, 7, 8".toList
      = some [.ldframe 0 11 0x7FF 0xF #v[1, 2, 3, 4, 5, 6, 7, 8]] := by decide

/-! ## Witnesses: for each statement with hypotheses, states and operands that meet them -/

theorem witness_OpcodeMapOfCommandWords :
    (0xFFFFFFF0 &&& 0x0000000F : Word) = 0x0 ∧ (0x11 &&& 0x0000000F : Word) = 0x1 ∧ (0x2 &&& 0x0000000F : Word) = 0x2
      ∧ (0x3 &&& 0x0000000F : Word) = 0x3 ∧ (0x4 &&& 0x0000000F : Word) = 0x4 ∧ (0x5 &&& 0x0000000F : Word) = 0x5
      ∧ (0x6 &&& 0x0000000F : Word) = 0x6 ∧ (0x7 &&& 0x0000000F : Word) = 0x7 ∧ (0x8 &&& 0x0000000F : Word) = 0x8
      ∧ (0x9 &&& 0x0000000F : Word) = 0x9 ∧ (0xA &&& 0x0000000F : Word) = 0xA ∧ (0xB &&& 0x0000000F : Word) = 0xB
      ∧ (0xC &&& 0x0000000F : Word) = 0xC ∧ (0xD &&& 0x0000000F : Word) = 0xD ∧ (0xE &&& 0x0000000F : Word) = 0xE
      ∧ (0xFFFFFFFF &&& 0x0000000F : Word) = 0xF := by decide

theorem witness_AccessWordFields :
    (0x11000000123 : BitVec 41).toNat = 2 ^ 40 + (0x10 : Byte).toNat * 2 ^ 32 + (0x123 : Word).toNat
      ∧ (0x0FFFFFFFFFF : BitVec 41).toNat = 0 + (0xFF : Byte).toNat * 2 ^ 32 + (0xFFFFFFFF : Word).toNat := by decide

theorem witness_StepRunsDecodedInstruction :
    (withInput (.word (.cmd32 0x1)) vb1).program = .word (.cmd32 0x1) :: []
      ∧ decodeTableWord 48 0x10000000001 = some (.wr 0x00 0x1) := by decide

theorem witness_StepTakesAccessOrIdles :
    (withInput (.access ⟨true, 4, 0x10, 5⟩) vb1).program = .access ⟨true, 4, 0x10, 5⟩ :: [] ∧ vb1.program = [] := by
  decide

theorem witness_ResetInputSetsResetState : (withInput .reset built).program = .reset :: [] := by decide

/-- The invariant holds where a frame, its checksum and its serialization are held. -/
theorem serialized_inv : serialized.Inv where
  frameWf := by decide
  crcOfFrame := by decide +kernel
  serOfFrame := by decide +kernel
  statusConsistent := by exact ⟨rfl, rfl, rfl⟩

theorem withInput_inv (x : HostInput) {s : State} (h : s.Inv) : (withInput x s).Inv :=
  ⟨h.frameWf, h.crcOfFrame, h.serOfFrame, h.statusConsistent⟩

theorem witness_EveryStepKeepsInvariant :
    (withInput (.word (.cmd32 0x2)) serialized).Inv
      ∧ after (step (withInput (.word (.cmd32 0x2)) serialized)) = some serialized :=
  ⟨withInput_inv _ serialized_inv, by decide +kernel⟩

theorem witness_OnlyCommandsChangeResults :
    after (step (withInput (.word (.cmd32 0x1)) vb1)) = some built
      ∧ (built.frame, built.crc, built.ser, built.status) ≠ (vb1.frame, vb1.crc, vb1.ser, vb1.status) := by decide

theorem witness_StepTakesOneInputInOrder :
    after (step (withInput (.word (.haw41 0x04400000000)) built)) = some { built with reads := [0x00000123] } := by decide

/-- A step that holds a new frame, one that drops it and one that keeps it. -/
theorem witness_HeldFrameIsNeverEdited :
    after (step (withInput (.word (.cmd32 0x1)) vb1)) = some built
      ∧ after (step (withInput (.word (.cmd32 0x4)) built)) = some vb1
      ∧ after (step (withInput (.access ⟨true, 4, 0x40, 5⟩) built)) = some built := by decide

theorem witness_OnlyStagingWritesChangeInputs :
    after (step (withInput (.access ⟨true, 4, 0x3C, 5⟩) State.reset))
        = some (staged false 0 0 0 0 0 #v[0, 0, 0, 0, 0, 0, 0, 5])
      ∧ (staged false 0 0 0 0 0 #v[0, 0, 0, 0, 0, 0, 0, 5]).inp ≠ State.reset.inp := by decide

/-- SHORT and EXTENDED inputs of the right lengths. -/
theorem witness_BuildHoldsAssembledFrame :
    (vb1.inp.arbLen.toNat = (if vb1.inp.variant then 26 else 11) ∧ vb1.inp.cmdLen.toNat = 4 ∧ vb1.inp.dataLen.toNat = 8)
      ∧ vc6.inp.arbLen.toNat = (if vc6.inp.variant then 26 else 11) ∧ vc6.inp.cmdLen.toNat = 4
      ∧ vc6.inp.dataLen.toNat = 8 := by decide

theorem witness_BuiltFrameReadsBackInputs :
    (vb1.inp.variant = false ∧ vb1.inp.arbLen.toNat = 11 ∧ vb1.inp.cmdLen.toNat = 4 ∧ vb1.inp.dataLen.toNat = 8)
      ∧ vc6.inp.variant = true ∧ vc6.inp.arbLen.toNat = 26 ∧ vc6.inp.cmdLen.toNat = 4 ∧ vc6.inp.dataLen.toNat = 8 := by
  decide

/-- V-B6: EXTENDED with 11 bits. -/
theorem witness_FailedBuildStatusWord :
    (staged true 11 0x123 4 8 8 d1).inp.arbLen.toNat ≠ (if (staged true 11 0x123 4 8 8 d1).inp.variant then 26 else 11) := by
  decide

/-- V-B16: command and data wrong. -/
theorem witness_BuildFailsOnEveryWrongLength :
    (staged false 11 0 3 0 3 d1).inp.cmdLen.toNat ≠ 4 ∧ (staged false 11 0 3 0 3 d1).inp.dataLen.toNat ≠ 8 := by decide

/-- V-B4 (10 bits), V-B9 (5 bits), V-B12 (7 bytes). -/
theorem witness_BuildReportsFirstWrongLength :
    (staged false 10 0x123 4 8 8 d1).inp.arbLen.toNat ≠ 11
      ∧ ((staged false 11 0x123 5 8 8 d1).inp.arbLen.toNat = 11 ∧ (staged false 11 0x123 5 8 8 d1).inp.cmdLen.toNat ≠ 4)
      ∧ ((staged true 26 0x123 4 8 7 d1).inp.arbLen.toNat = 26 ∧ (staged true 26 0x123 4 8 7 d1).inp.cmdLen.toNat = 4
        ∧ (staged true 26 0x123 4 8 7 d1).inp.dataLen.toNat ≠ 8) := by decide

/-- V-B17 and V-B18: dirty upper bits. -/
theorem witness_BitsBeyondLengthDoNotAffectBuild :
    (∀ k < (if vb1.inp.variant then 26 else 11), (0xFFFFF123 : Word).getLsbD k = vb1.inp.arb.getLsbD k)
      ∧ ∀ k < 4, (0xF8 : Byte).getLsbD k = vb1.inp.cmd.getLsbD k := by decide

/-- A state without a frame and one with. -/
theorem witness_ChecksumOfHeldFrame : State.reset.frame = none ∧ built.frame = some frameB1
    ∧ (0xABCDEF02 : Word).extractLsb' 0 4 = 0x2 := by decide

theorem witness_SerializeOfHeldFrame : State.reset.frame = none ∧ built.frame = some frameB1
    ∧ (0xABCDEF03 : Word).extractLsb' 0 4 = 0x3 := by decide

theorem witness_CrcOfZerosAndOfLastOne : Config.fpk.crcInit = 0 := by decide

theorem witness_SingleBitChangeChangesCrc :
    1 < ([true, false] : BitSeq).length ∧ Config.fpk.crcPoly = 0x4599 := by decide

theorem witness_CrcIsLinear :
    Config.fpk.crcInit = 0 ∧ ([true, false] : BitSeq).length = ([true, true] : BitSeq).length := by decide

theorem witness_SerializedFrameLayout :
    (frameB1.Wf ∧ 82 = (if frameB1.variant then 97 else 82)) ∧ frameC4.Wf ∧ 97 = (if frameC4.variant then 97 else 82) := by
  decide

/-- A well-formed SHORT and a well-formed EXTENDED frame. -/
theorem witness_StreamLayout :
    (frameB1.Wf ∧ 11 = (if frameB1.variant then 26 else 11)) ∧ frameC4.Wf ∧ 26 = (if frameC4.variant then 26 else 11) := by
  decide

theorem witness_ResultsDependOnFrameOnly :
    built.frame = some frameB1 ∧ { vc6 with frame := some frameB1 }.frame = some frameB1
      ∧ built.config = { vc6 with frame := some frameB1 }.config ∧ built.inp ≠ vc6.inp := by decide

theorem witness_ResetStateReadsZero : (0x00 : Byte).toNat % 4 = 0 ∧ (0xFC : Byte).toNat % 4 = 0 := by decide

theorem witness_ClearDropsFrame :
    ((0x40 : Byte).toNat % 4 = 0 ∧ 0x40 ≤ (0x40 : Byte).toNat) ∧ (0xFC : Byte).toNat % 4 = 0 ∧ 0x40 ≤ (0xFC : Byte).toNat
      ∧ (0xABCDEF04 : Word).extractLsb' 0 4 = 0x4 := by decide

/-- A reserved instruction, and the reserved OPs 0, 5 and 0xF. -/
theorem witness_ReservedOpcodesRaiseIllegalOp :
    Instr.rsvdA 5 ∈ ([.rsvd0 5, .rsvd5 5, .rsvd6 5, .rsvd7 5, .rsvd8 5, .rsvd9 5, .rsvdA 5, .rsvdB 5, .rsvdC 5,
      .rsvdD 5, .rsvdE 5, .rsvdF 5] : List Instr)
      ∧ (0x10 : Word).extractLsb' 0 4 = 0 ∧ 5 ≤ ((0x5 : Word).extractLsb' 0 4).toNat
      ∧ 5 ≤ ((0xF : Word).extractLsb' 0 4).toNat := by decide

theorem witness_CommandRegister : (0xFFFFFFF2 : Word).extractLsb' 0 4 = (0x2 : Word).extractLsb' 0 4 := by decide

/-- Two words with the same OP (V-K8), and the reserved OPs 0, 5 and 0xF (V-K4, V-K6, V-K5). -/
theorem witness_CommandUpperBitsIgnored :
    (0x11 : Word).extractLsb' 0 4 = (0x1 : Word).extractLsb' 0 4 ∧ (0x10 : Word).extractLsb' 0 4 = 0
      ∧ 5 ≤ ((0x5 : Word).extractLsb' 0 4).toNat ∧ 5 ≤ ((0xF : Word).extractLsb' 0 4).toNat := by decide

theorem witness_ReadHasNoSideEffect : (0x00 : Byte).toNat % 4 = 0 ∧ (0xFC : Byte).toNat % 4 = 0 := by decide

theorem witness_RegisterWritesAreIdempotent :
    ((0x04 : Byte).toNat % 4 = 0 ∧ (0x04 : Byte) ≠ 0) ∧ (0xFC : Byte).toNat % 4 = 0 ∧ (0xFC : Byte) ≠ 0 := by decide

/-- Offsets at the edges of each clause. -/
theorem witness_WriteChangesOnlyItsRegister :
    ∀ off ∈ ([0x00, 0x04, 0x08, 0x0C, 0x10, 0x14, 0x3C, 0x40, 0x4C, 0x84, 0x88, 0xFC] : List Byte), off.toNat % 4 = 0 := by
  decide

/-- V-H8 and V-H9, and an accepted access. -/
theorem witness_BadAccessFaults :
    (0x06 : Byte).toNat % 4 ≠ 0 ∧ (⟨true, 1, 0x10, 0⟩ : Access).size ≠ 4
      ∧ (⟨false, 4, 0xFC, 0⟩ : Access).size = 4 ∧ (⟨false, 4, 0xFC, 0⟩ : Access).off.toNat % 4 = 0 := by decide

/-- P4. -/
theorem witness_RefusedAccessEndsRun :
    (withInput (.word (.haw41 0x00600000000)) built).program ≠ []
      ∧ faultOf (step (withInput (.word (.haw41 0x00600000000)) built)) = some (.busAccess false 4 0x06) := by decide

theorem witness_ReservedOffsets :
    (0x4C : Byte).toNat % 4 = 0 ∧ ((0x88 : Byte).toNat % 4 = 0 ∧ 0x88 ≤ (0x88 : Byte).toNat)
      ∧ (0xFC : Byte).toNat % 4 = 0 ∧ 0x88 ≤ (0xFC : Byte).toNat := by decide

theorem witness_WindowTableIsExact :
    ((0x84 : Byte).toNat % 4 = 0 ∧ regAt 0x84 = some (.serW 3)) ∧ (0x4C : Byte).toNat % 4 = 0 ∧ regAt 0x4C = none := by
  decide

theorem witness_FrameRegistersShowFrame :
    State.reset.frame = none ∧ built.frame = some frameB1 ∧ frameB1.Wf ∧ 11 = (if frameB1.variant then 26 else 11) := by
  decide

theorem witness_CrcAndLengthRegisters :
    State.reset.crc = none ∧ serialized.crc = some 0x38E4 ∧ State.reset.ser = none ∧ serialized.Inv
      ∧ serialized.ser = some (serializeFrame Config.fpk frameB1) :=
  ⟨rfl, rfl, rfl, serialized_inv, rfl⟩

/-- The last element, 106 = 32 * 3 + 10, and the first position past the end. -/
theorem witness_SerializedWordsReadout :
    State.reset.ser = none ∧ serialized.ser = some (serializeFrame Config.fpk frameB1)
      ∧ 32 * 3 + 10 < (serializeFrame Config.fpk frameB1).length
      ∧ (serializeFrame Config.fpk frameB1).length ≤ 32 * 3 + 11 := by decide +kernel

end Sys2Proof.Tests
end

/-! # Family 10_state: what the host reads of the window, and what a write leaves

Lemmas about the register window (spec/10_state.md R23 to R41), then the obligations settled from them. -/
section
namespace Sys2Proof.Machine

/-! ## Reading the window -/

theorem readWindow_of_regAt {off : Byte} {r : Reg} (h : regAt off = some r) (s : State) :
    readWindow off s = readReg r s := by
  simp [readWindow, h]

theorem readWindow_of_reserved {off : Byte} (h : regAt off = none) (s : State) : readWindow off s = 0 := by
  simp [readWindow, h]

/-- A read at the offset that R23 gives a register shows that register. -/
theorem readWindow_regOffset (r : Reg) (s : State) : readWindow (regOffset r) s = readReg r s :=
  readWindow_of_regAt (regAt_regOffset r) s

/-- Among the multiples of 4, the offsets that name no register are those of R41. -/
theorem regAt_eq_none_iff {off : Byte} (h : off.toNat % 4 = 0) :
    regAt off = none ↔ off = 0x4C ∨ 0x88 ≤ off.toNat := by
  revert off
  decide

/-- Every register reads 0 at reset (R45). -/
theorem readReg_reset (r : Reg) : readReg r State.reset = 0 := by
  cases r with
  | dataIn k => simp [readReg, State.reset, Inputs.reset]
  | _ => rfl

theorem readWindow_reset (off : Byte) : readWindow off State.reset = 0 := by
  cases h : regAt off with
  | none => exact readWindow_of_reserved h _
  | some r => rw [readWindow_of_regAt h, readReg_reset]

/-- The host's record of reads is no part of the FPK's state (log 6). -/
theorem State.sameFpk_recordRead (v : Word) (s : State) : s.SameFpk (s.recordRead v) := by
  simp [State.SameFpk]

/-- An aligned RD completes and leaves the FPK's state alone (spec/20_memory.md R53). -/
theorem exec_rd_sameFpk {off : Byte} (h : off.toNat % 4 = 0) (d : Word) (s : State) :
    ∃ t, exec (.rd off d) s = .next t ∧ s.SameFpk t :=
  ⟨_, exec_rd_aligned h d s, State.sameFpk_recordRead _ s⟩

/-! ## Writes without effect -/

theorem storeReg_of_not_staging {r : Reg} (h : isStaging r = false) (v : Word) (s : State) :
    storeReg r v s = s := by
  simp [storeReg, storeInput_of_not_staging h, State.setInp]

theorem memWrite_reserved {off : Byte} (h : regAt off = none) (v : Word) (s : State) :
    memWrite off v s = .next s := by
  simp [memWrite, h]

/-- A write of a read-only register is ignored (spec/20_memory.md R52). -/
theorem memWrite_readOnly {off : Byte} {r : Reg} (hr : regAt off = some r) (hcmd : r ≠ .cmd)
    (hro : isStaging r = false) (v : Word) (s : State) : memWrite off v s = .next s := by
  obtain ⟨h, -⟩ | ⟨q, hq, -, hw⟩ | ⟨h, -⟩ := memWrite_cases off v s
  · exact absurd (Option.some.inj (hr.symm.trans h)) hcmd
  · obtain rfl : r = q := Option.some.inj (hr.symm.trans hq)
    rw [hw, storeReg_of_not_staging hro]
  · cases hr.symm.trans h

/-! ## CMD -/

/-- A WR of CMD performs the operation of the word's OP (R24). -/
theorem exec_wr_cmd (w : Word) (s : State) : exec (.wr 0x00 w) s = perform w s :=
  (exec_wr_aligned rfl w s).trans (memWrite_zero w s)

/-- Only OP of a command word has an effect (spec/30_encoding.md R72). -/
theorem perform_congr {w w' : Word} (h : opField w = opField w') (s : State) : perform w s = perform w' s := by
  simp only [perform_eq, h]

/-! ## The fields of STATUS (R25) -/

/-- The fields of STATUS above the flags, each at its bits: bit `i` of a field is bit `lo + i` of the word. -/
theorem statusWord_fields (s : State) :
    (statusWord s).extractLsb' 4 4 = errCodeBits s.status.code
      ∧ (statusWord s).extractLsb' 8 2 = errFieldBits s.status.field
      ∧ (statusWord s).extractLsb' 10 6 = 0
      ∧ (statusWord s).extractLsb' 16 8 = s.status.expected
      ∧ (statusWord s).extractLsb' 24 8 = s.status.actual := by
  refine ⟨?_, ?_, ?_, ?_, ?_⟩
  all_goals
    ext i hi
    rw [BitVec.getElem_extractLsb', statusWord_getLsbD s _ (by omega)]
    simp (disch := omega) only [if_neg, if_pos, Nat.add_sub_cancel_left, BitVec.getLsbD_eq_getElem,
      BitVec.ofNat_eq_ofNat, BitVec.getElem_zero]

/-! ## Sequences shown in a register -/

/-- Element `i` of a sequence shown right-aligned is at bit `len(s) - 1 - i` (R35, R36). -/
theorem seqWord_getLsbD_element {q : BitSeq} (hq : q.length ≤ 32) {i : Nat} (hi : i < q.length) :
    some ((seqWord q).getLsbD (q.length - 1 - i)) = q[i]? := by
  have hidx : q.length - 1 - (q.length - 1 - i) = i := by omega
  have hlt : q.length - 1 - i < q.length := by omega
  simp [seqWord_getLsbD q hq, hidx, hlt, hi]

theorem seqWord_getLsbD_above {q : BitSeq} (hq : q.length ≤ 32) {k : Nat} (hk : q.length ≤ k) :
    (seqWord q).getLsbD k = false := by
  simp [seqWord_getLsbD q hq, Nat.not_lt.2 hk]

/-! ## The frame registers (R34 to R37) -/

theorem readReg_frame_none {s : State} (h : s.frame = none) :
    readReg .frameVariant s = 0 ∧ readReg .frameArb s = 0 ∧ readReg .frameCcf s = 0
      ∧ ∀ k, readReg (.frameData k) s = 0 := by
  simp [readReg, h]

theorem readReg_frame_some {s : State} {F : Frame} (h : s.frame = some F) :
    readReg .frameVariant s = bitWord F.variant ∧ readReg .frameArb s = seqWord F.arb
      ∧ readReg .frameCcf s = seqWord F.ccf ∧ ∀ k, readReg (.frameData k) s = F.data[k].setWidth 32 := by
  simp [readReg, h]

/-- FRAME_ARB of a well-formed frame: 11 or 26 elements right-aligned, zeros above (R35). -/
theorem seqWord_arb_bits {F : Frame} (hF : F.Wf) :
    (∀ i < expectedArbLen F.variant,
        some ((seqWord F.arb).getLsbD (expectedArbLen F.variant - 1 - i)) = F.arb[i]?)
      ∧ ∀ k, expectedArbLen F.variant ≤ k → (seqWord F.arb).getLsbD k = false := by
  obtain ⟨harb, -, -, -⟩ := hF
  have h32 : F.arb.length ≤ 32 := by
    rw [harb]; cases F.variant <;> decide
  rw [← harb]
  exact ⟨fun i hi => seqWord_getLsbD_element h32 hi, fun k hk => seqWord_getLsbD_above h32 hk⟩

/-- FRAME_CCF of a well-formed frame: the extension bit at 5, the reserved bit 0 at 4, the command bits below, zeros
above (R36). -/
theorem seqWord_ccf_bits {F : Frame} (hF : F.Wf) :
    some ((seqWord F.ccf).getLsbD 5) = F.ccf[0]? ∧ (seqWord F.ccf).getLsbD 4 = false
      ∧ (∀ i < 4, some ((seqWord F.ccf).getLsbD (3 - i)) = F.ccf[2 + i]?)
      ∧ ∀ k, 6 ≤ k → (seqWord F.ccf).getLsbD k = false := by
  obtain ⟨-, hlen, -, hrsvd⟩ := hF
  have hlen : F.ccf.length = 6 := hlen
  have element {i : Nat} (hi : i < 6) : some ((seqWord F.ccf).getLsbD (5 - i)) = F.ccf[i]? := by
    simpa [hlen] using seqWord_getLsbD_element (q := F.ccf) (by omega) (i := i) (by omega)
  refine ⟨element (i := 0) (by decide), ?_, fun i hi => ?_, fun k hk => seqWord_getLsbD_above (by omega) (by omega)⟩
  · exact Option.some.inj ((element (i := 1) (by decide)).trans hrsvd)
  · simpa [Nat.sub_add_eq] using element (i := 2 + i) (by omega)

/-! ## CRC, SER_LEN and the serialized words (R38 to R40) -/

theorem readReg_crc_none {s : State} (h : s.crc = none) : readReg .crc s = 0 := by simp [readReg, h]

theorem readReg_crc_some {s : State} {c : Crc} (h : s.crc = some c) : readReg .crc s = c.setWidth 32 := by
  simp [readReg, h]

theorem readReg_ser_none {s : State} (h : s.ser = none) :
    readReg .serLen s = 0 ∧ ∀ j, readReg (.serW j) s = 0 := by
  simp [readReg, h]

theorem readReg_ser_some {s : State} {b : BitSeq} (h : s.ser = some b) :
    readReg .serLen s = BitVec.ofNat 32 b.length ∧ ∀ j : Fin 4, readReg (.serW j) s = serWord b j := by
  simp [readReg, h]

theorem setWidth_crc_fields (c : Crc) :
    (c.setWidth 32).extractLsb' 0 15 = c ∧ (c.setWidth 32).extractLsb' 15 17 = 0 := by
  constructor <;> ext i hi
  · simp [BitVec.getElem_extractLsb', hi, show i < 32 by omega]
  · simp [BitVec.getElem_extractLsb', BitVec.getLsbD_setWidth]

/-- 107 bits for SHORT, 122 for EXTENDED (spec/42_serialize.md R150). -/
theorem serializeFrame_length_of_wf (cfg : Config) {F : Frame} (hF : F.Wf) :
    (serializeFrame cfg F).length = if F.variant then 122 else 107 := by
  obtain ⟨harb, hccf, -, -⟩ := hF
  rw [serializeFrame_length, stream_length, harb, hccf]
  cases F.variant <;> rfl

theorem State.Inv.ser_length {s : State} (hs : s.Inv) {b : BitSeq} (hb : s.ser = some b) :
    b.length = 107 ∨ b.length = 122 := by
  obtain ⟨F, hF, -, rfl⟩ := hs.serOfFrame b hb
  rw [serializeFrame_length_of_wf s.config (hs.frameWf F hF)]
  cases F.variant <;> simp

/-! ## A frame whose checksum is 0 -/

/-- With CRC_INIT 0 the engine stays at 0 on a sequence of zeros (spec/41_checksum.md R136). -/
theorem crc15Bits_replicate_false (cfg : Config) (h : cfg.crcInit = 0) (n : Nat) :
    crc15Bits cfg (List.replicate n false) = 0 := by
  induction n with
  | zero => exact h
  | succ n ih => rw [List.replicate_succ', crc15Bits_snoc, ih, crcStep_eq]; simp

/-- The SHORT frame of zeros. -/
def zeroFrame : Frame := ⟨false, List.replicate 11 false, List.replicate 6 false, Vector.replicate 8 0⟩

theorem zeroFrame_wf : zeroFrame.Wf := by decide

theorem stream_zeroFrame : stream zeroFrame = List.replicate 82 false := by decide

theorem crc15_zeroFrame : crc15 Config.fpk zeroFrame = 0 := by
  rw [crc15, stream_zeroFrame, crc15Bits_replicate_false _ rfl]

/-- The state that holds the frame of zeros and its checksum, 0. -/
def zeroCrcState : State := State.reset.setResults (some zeroFrame) (some 0) none

theorem zeroCrcState_inv : zeroCrcState.Inv where
  frameWf F hF := by
    obtain rfl : zeroFrame = F := Option.some.inj hF
    exact zeroFrame_wf
  crcOfFrame c hc := by
    obtain rfl : 0 = c := Option.some.inj hc
    exact ⟨zeroFrame, rfl, crc15_zeroFrame.symm⟩
  serOfFrame b hb := by cases hb
  statusConsistent := ⟨rfl, rfl, rfl⟩

/-! ## The obligations of the family -/

/-- Settles O11: every register reads 0 at reset. -/
theorem resetStateReadsZero : Obligations.ResetStateReadsZero :=
  ⟨rfl, rfl, rfl, rfl, rfl, fun off _ => readWindow_reset off⟩

/-- Settles O40: a WR of CMD is `perform`, which reads OP alone. -/
theorem commandRegister : Obligations.CommandRegister := by
  refine ⟨fun w s => ?_, fun w w' s h => ?_, readWindow_regOffset .cmd, exec_rd_sameFpk rfl⟩
  · exact (exec_wr_cmd w s).trans (exec_decodeCommand w s).symm
  · rw [exec_wr_cmd, exec_wr_cmd, perform_congr h]

/-- Settles O41: STATUS is the word of its fields, and a read-only register. -/
theorem statusRegisterFields : Obligations.StatusRegisterFields := by
  refine ⟨fun s => ?_, fun v s => ?_, readWindow_reset _⟩
  · have hword : readWindow 0x04 s = statusWord s := readWindow_regOffset .status s
    obtain ⟨hcode, hfield, hzeros, hexpected, hactual⟩ := statusWord_fields s
    rw [hword]
    refine ⟨statusWord_getLsbD s 0 (by decide), statusWord_getLsbD s 1 (by decide),
      statusWord_getLsbD s 2 (by decide), statusWord_getLsbD s 3 (by decide), hcode.trans ?_, hfield.trans ?_,
      hzeros, hexpected, hactual⟩
    · cases s.status.code <;> rfl
    · cases s.status.field <;> rfl
  · exact (exec_wr_aligned rfl v s).trans (memWrite_readOnly (r := .status) rfl (by simp) rfl v s)

/-- Settles O47: a reserved offset names no register. -/
theorem reservedOffsets : Obligations.ReservedOffsets := by
  intro off v s haligned hreserved
  have hnone : regAt off = none := (regAt_eq_none_iff haligned).2 hreserved
  exact ⟨readWindow_of_reserved hnone s, (exec_wr_aligned haligned v s).trans (memWrite_reserved hnone v s),
    exec_rd_sameFpk haligned v s⟩

/-- Settles O49: each frame register shows its field of the held frame, right-aligned. -/
theorem frameRegistersShowFrame : Obligations.FrameRegistersShowFrame := by
  have hvar : ∀ s, readWindow 0x40 s = readReg .frameVariant s := readWindow_regOffset .frameVariant
  have harb : ∀ s, readWindow 0x44 s = readReg .frameArb s := readWindow_regOffset .frameArb
  have hccf : ∀ s, readWindow 0x48 s = readReg .frameCcf s := readWindow_regOffset .frameCcf
  have hdata : ∀ (k : Fin 8) s, readWindow (BitVec.ofNat 8 (0x50 + 4 * k.val)) s = readReg (.frameData k) s :=
    fun k => readWindow_regOffset (.frameData k)
  refine ⟨fun s h => ?_, fun s F h => ?_, fun s F L h hF hL => ?_, readWindow_reset _, readWindow_reset _,
    readWindow_reset _, fun k => readWindow_reset _⟩
  · simpa only [hvar, harb, hccf, hdata] using readReg_frame_none h
  · simp only [hvar, harb, hccf, hdata]
    exact readReg_frame_some h
  · obtain ⟨-, hshowArb, hshowCcf, -⟩ := readReg_frame_some h
    rw [harb, hccf, hshowArb, hshowCcf]
    obtain rfl : L = expectedArbLen F.variant := hL
    obtain ⟨helements, habove⟩ := seqWord_arb_bits hF
    exact ⟨helements, habove, seqWord_ccf_bits hF⟩

/-- Settles O50: a checksum of 0 is that of the frame of zeros, with CRC_INIT 0. -/
theorem crcAndLengthRegisters : Obligations.CrcAndLengthRegisters := by
  have hcrc : ∀ s, readWindow 0x70 s = readReg .crc s := readWindow_regOffset .crc
  have hlen : ∀ s, readWindow 0x74 s = readReg .serLen s := readWindow_regOffset .serLen
  refine ⟨fun s h => (hcrc s).trans (readReg_crc_none h), fun s c h => ?_,
    ⟨zeroCrcState, zeroCrcState_inv, rfl, ?_, ?_⟩, fun s h => (hlen s).trans (readReg_ser_none h).1,
    fun s b hs hb => ?_, readWindow_reset _, readWindow_reset _⟩
  · rw [hcrc, readReg_crc_some h]
    exact setWidth_crc_fields c
  · rw [hcrc, readReg_crc_some (c := 0) rfl]
    rfl
  · exact statusWord_getLsbD zeroCrcState 1 (by decide)
  · obtain ⟨hshown, -⟩ := readReg_ser_some hb
    have hcases := hs.ser_length hb
    rw [hlen, hshown, BitVec.toNat_ofNat, Nat.mod_eq_of_lt (by omega)]
    exact ⟨rfl, hcases⟩

/-- Settles O51: SER_W_j shows elements 32j to 32j + 31, the first at bit 31. -/
theorem serializedWordsReadout : Obligations.SerializedWordsReadout := by
  have hword : ∀ (j : Fin 4) s, readWindow (BitVec.ofNat 8 (0x78 + 4 * j.val)) s = readReg (.serW j) s :=
    fun j => readWindow_regOffset (.serW j)
  refine ⟨fun s j h => (hword j s).trans ((readReg_ser_none h).2 j), fun s b j m hb hm => ?_, fun cfg F hF => ?_,
    fun j => readWindow_reset _⟩
  · obtain ⟨-, hshown⟩ := readReg_ser_some hb
    have hbit : (serWord b j).getLsbD (31 - m) = b.getD (32 * j.val + m) false := by
      rw [serWord_getLsbD b j _ (by omega), show 31 - (31 - m) = m by omega]
    rw [hword, hshown, hbit]
    exact ⟨fun h => List.getD_eq_getElem b false h, fun h => List.getD_eq_default b false h⟩
  · rw [serializeFrame_length_of_wf cfg hF]
    cases F.variant <;> decide

end Sys2Proof.Machine
end

/-! # Family 20_memory: what a write changes, and which accesses fault

Lemmas about `MemWrite` and the port (spec/20_memory.md R52, R54; spec/60_exceptions.md R185), then the obligations
settled from them. -/
section
namespace Sys2Proof.Machine

/-! ## The port -/

/-- The port takes exactly the 4-byte accesses at a multiple of 4 (R54). -/
theorem accessAccepted_iff (a : Access) : accessAccepted a = true ↔ a.size = 4 ∧ a.off.toNat % 4 = 0 := by
  simp [accessAccepted]

theorem portAccess_of_not_accepted {a : Access} (h : ¬ accessAccepted a = true) (s : State) :
    portAccess a s = .fault (.busAccess a.write a.size a.off) := by
  simp [portAccess, h]

theorem memWrite_completes (off : Byte) (v : Word) (s : State) : ∃ t, memWrite off v s = .next t := by
  obtain ⟨-, h⟩ | ⟨r, -, -, h⟩ | ⟨-, h⟩ := memWrite_cases off v s
  · obtain ⟨t, ht, -⟩ := perform_cases v s
    exact ⟨t, h.trans ht⟩
  · exact ⟨_, h⟩
  · exact ⟨_, h⟩

theorem portAccess_completes {a : Access} (h : accessAccepted a = true) (s : State) :
    ∃ t, portAccess a s = .next t := by
  obtain ⟨hrefused, -⟩ | ⟨-, -, hwrite⟩ | ⟨-, -, hread⟩ := portAccess_cases a s
  · simp [h] at hrefused
  · rw [hwrite]
    exact memWrite_completes a.off a.data s
  · exact ⟨_, hread⟩

/-! ## Writes of a register other than CMD -/

theorem memWrite_of_ne_cmd {off : Byte} {r : Reg} (hr : regAt off = some r) (hcmd : r ≠ .cmd) (v : Word)
    (s : State) : memWrite off v s = .next (storeReg r v s) := by
  obtain ⟨h, -⟩ | ⟨q, hq, -, hw⟩ | ⟨h, -⟩ := memWrite_cases off v s
  · exact absurd (Option.some.inj (hr.symm.trans h)) hcmd
  · rwa [Option.some.inj (hr.symm.trans hq)]
  · cases hr.symm.trans h

/-- A register lies at one offset only (spec/10_state.md R23). -/
theorem eq_regOffset_of_regAt {off : Byte} (ha : off.toNat % 4 = 0) {r : Reg} (hr : regAt off = some r) :
    off = regOffset r := by
  have all : ∀ off : Byte, off.toNat % 4 = 0 → ∀ r ∈ regAt off, off = regOffset r := by decide
  exact all off ha r hr

/-- A store to the register of one offset changes the reading at no other offset (R52). -/
theorem readWindow_storeReg_of_ne {off off' : Byte} (ha : off.toNat % 4 = 0) (ha' : off'.toNat % 4 = 0)
    (hne : off' ≠ off) {r : Reg} (hr : regAt off = some r) (v : Word) (s : State) :
    readWindow off' (storeReg r v s) = readWindow off' s := by
  cases hr' : regAt off' with
  | none => rw [readWindow_of_reserved hr', readWindow_of_reserved hr']
  | some r' =>
    have hreg : r' ≠ r := by
      rintro rfl
      exact hne ((eq_regOffset_of_regAt ha' hr').trans (eq_regOffset_of_regAt ha hr).symm)
    rw [readWindow_of_regAt hr', readWindow_of_regAt hr', readReg_storeReg_of_ne hreg]

/-! ## What an RW register shows after it is written: the value masked to its field -/

theorem setWidth_extractLsb'_eq_and (v : Word) : (v.extractLsb' 0 8).setWidth 32 = v &&& 0x000000FF := by
  have hmask : v.toNat &&& 0xFF = v.toNat % 2 ^ 8 := Nat.and_two_pow_sub_one_eq_mod v.toNat 8
  have hlt : v.toNat % 2 ^ 8 < 2 ^ 32 := by omega
  apply BitVec.eq_of_toNat_eq
  simpa [hmask] using hlt

theorem readReg_storeReg_variantIn (v : Word) (s : State) :
    readReg .variantIn (storeReg .variantIn v s) = v &&& 0x00000001 := by
  have hbit : v &&& 0x00000001 = (BitVec.ofBool (v.getLsbD 0)).setWidth 32 :=
    BitVec.and_one_eq_setWidth_ofBool_getLsbD
  rw [hbit]
  simp only [readReg, storeReg_inp, storeInput]
  cases v.getLsbD 0 <;> rfl

theorem readReg_storeReg_arbIn (v : Word) (s : State) : readReg .arbIn (storeReg .arbIn v s) = v := rfl

/-- The other RW registers hold 8 bits. -/
theorem readReg_storeReg_byte {r : Reg} (hr : isStaging r = true) (hvar : r ≠ .variantIn) (harb : r ≠ .arbIn)
    (v : Word) (s : State) : readReg r (storeReg r v s) = v &&& 0x000000FF := by
  rw [← setWidth_extractLsb'_eq_and]
  cases r with
  | variantIn => exact absurd rfl hvar
  | arbIn => exact absurd rfl harb
  | arbLenIn | cmdLenIn | cmdIn | dataLenIn => rfl
  | dataIn k => simp [readReg, storeInput]
  | _ => cases hr

/-! ## The obligations of the family -/

/-- Settles O43: a write of CMD is `perform`, one of another register is `storeReg`, one of a reserved offset does
nothing. -/
theorem writeChangesOnlyItsRegister : Obligations.WriteChangesOnlyItsRegister := by
  intro off v s ha
  rw [exec_wr_aligned ha]
  refine ⟨?_, fun hoff => ?_⟩
  · rintro rfl
    exact ⟨(memWrite_zero v s).trans (exec_decodeCommand v s).symm, memWrite_completes 0 v s⟩
  cases hr : regAt off with
  | none =>
    have hge : 0x4C ≤ off.toNat := regAt_eq_none_le hr
    exact ⟨s.inp, memWrite_reserved hr v s, fun _ _ _ => rfl, by omega, by omega, by omega, fun _ => rfl⟩
  | some r =>
    obtain ⟨hstaging, hcmd, hvar, harb⟩ := regAt_kind ha hr
    have hshow : readWindow off (storeReg r v s) = readReg r (storeReg r v s) := readWindow_of_regAt hr _
    refine ⟨storeInput r v s.inp, memWrite_of_ne_cmd hr (mt hcmd.1 hoff) v s,
      fun off' ha' hne => readWindow_storeReg_of_ne ha ha' hne hr v s, fun h => hshow.trans ?_,
      fun h => hshow.trans ?_, fun hlo hhi hne => hshow.trans ?_, fun h => ?_⟩
    · rw [hvar.2 h, readReg_storeReg_variantIn]
    · rw [harb.2 h, readReg_storeReg_arbIn]
    · exact readReg_storeReg_byte (hstaging.2 (by omega)) (mt hvar.1 (by omega)) (mt harb.1 hne) v s
    · have hro : isStaging r = false := Bool.eq_false_iff.2 (mt hstaging.1 (by omega))
      exact storeInput_of_not_staging hro v s.inp

/-- Settles O45: WR and RD go through the port, which takes exactly the aligned 4-byte accesses. -/
theorem badAccessFaults : Obligations.BadAccessFaults := by
  have hfault {a : Access} (h : a.size ≠ 4 ∨ a.off.toNat % 4 ≠ 0) (s : State) :
      portAccess a s = .fault (.busAccess a.write a.size a.off) :=
    portAccess_of_not_accepted (mt (accessAccepted_iff a).1 (not_and_or.2 h)) s
  exact ⟨fun _ s h => hfault h s, fun _ _ s h => ⟨hfault (.inr h) s, hfault (.inr h) s⟩,
    fun a s hsize halign => portAccess_completes ((accessAccepted_iff a).2 ⟨hsize, halign⟩) s⟩

end Sys2Proof.Machine
end

/-! # Family 30_encoding: what a command word does

Only OP, bits [3:0], of a command word has an effect (spec/30_encoding.md R72); the opcodes the table of R71 leaves
over are reserved (spec/43_control.md R171). -/
section
namespace Sys2Proof.Machine

/-- A reserved opcode sets `status` to the ILLEGAL_OP outcome and changes nothing else (R171). -/
theorem reserved_eq (s : State) : reserved s = { s with status := ⟨.illegalOp, .none, 0, 0⟩ } := rfl

/-- An OP of 0 or of 5 to 15 is none of the four operations of R71. -/
theorem perform_of_reserved_op {w : Word} (h : opField w = 0 ∨ 5 ≤ (opField w).toNat) (s : State) :
    perform w s = .next (reserved s) := by
  have hne {op : BitVec 4} (hpos : op ≠ 0) (hlt : op.toNat < 5) : opField w ≠ op := by
    rintro rfl
    exact h.elim hpos (Nat.not_le.2 hlt)
  rw [perform_eq, if_neg (hne (by decide) (by decide)), if_neg (hne (by decide) (by decide)),
    if_neg (hne (by decide) (by decide)), if_neg (hne (by decide) (by decide))]

/-- Settles O39: a command word runs `perform`, which reads OP alone, and a reserved OP is none of its operations. -/
theorem commandUpperBitsIgnored : Obligations.CommandUpperBitsIgnored := by
  have hrun (w : Word) (s : State) : exec (decode (.cmd32 w)) s = perform w s := exec_decodeCommand w s
  refine ⟨fun w w' s hop => ?_, fun w s hop => ?_⟩
  · rw [hrun, hrun, perform_congr hop]
  · rw [hrun, perform_of_reserved_op hop, reserved_eq]

end Sys2Proof.Machine
end

/-! # Family 40_build: what BUILD reports, what it holds, and what it does not read

Lemmas about the width check, the assembly and BUILD (spec/40_build.md R101 to R110), then the obligations settled
from them. -/
section
namespace Sys2Proof.Machine

/-! ## The width check, clause by clause (R102) -/

theorem checkWidths_of_arbLen_ne {i : Inputs} (ha : i.arbLen.toNat ≠ expectedArbLen i.variant) :
    checkWidths i = some (.fieldLength .arbitration (BitVec.ofNat 8 (expectedArbLen i.variant)) i.arbLen) := by
  rw [checkWidths, if_pos ha]

theorem checkWidths_of_cmdLen_ne {i : Inputs} (ha : i.arbLen.toNat = expectedArbLen i.variant)
    (hc : i.cmdLen.toNat ≠ cmdLen) : checkWidths i = some (.fieldLength .command 4 i.cmdLen) := by
  rw [checkWidths, if_neg (not_not.2 ha), if_pos hc]
  rfl

theorem checkWidths_of_dataLen_ne {i : Inputs} (ha : i.arbLen.toNat = expectedArbLen i.variant)
    (hc : i.cmdLen.toNat = cmdLen) (hd : i.dataLen.toNat ≠ dataBytes) :
    checkWidths i = some (.fieldLength .data 8 i.dataLen) := by
  rw [checkWidths, if_neg (not_not.2 ha), if_neg (not_not.2 hc), if_pos hd]
  rfl

/-- The width check reports an error exactly when one of the three lengths is wrong. -/
theorem checkWidths_ne_none (i : Inputs) :
    checkWidths i ≠ none ↔
      i.arbLen.toNat ≠ expectedArbLen i.variant ∨ i.cmdLen.toNat ≠ cmdLen ∨ i.dataLen.toNat ≠ dataBytes := by
  simp only [ne_eq, checkWidths_eq_none, not_and_or]

/-- FieldLengthError is all the width check reports (R110). -/
theorem errorStatus_code_of_checkWidths {i : Inputs} {e : OpError} (h : checkWidths i = some e) :
    (errorStatus e).code = .fieldLength := by
  obtain ⟨rfl, -⟩ | ⟨rfl, -⟩ | ⟨rfl, -⟩ := checkWidths_eq_some h <;> rfl

/-! ## BUILD -/

theorem exec_build (ign : BitVec 28) (s : State) : exec (.build ign) s = .next (build s) := rfl

theorem build_of_checkWidths_none {s : State} (h : checkWidths s.inp = none) :
    build s = ok (s.setResults (some (assembleFrame s.inp)) none none) := by
  simp [build, buildFrame, h]

theorem build_of_checkWidths_some {s : State} {e : OpError} (h : checkWidths s.inp = some e) :
    build s = raise e s := by
  simp [build, buildFrame, h]

/-- STATUS after a successful operation that left a frame and no derivation of it: FRAME_VALID alone (R104). -/
theorem readWindow_status_ok_frame (F : Frame) (s : State) :
    readWindow 0x04 (ok (s.setResults (some F) none none)) = 0x00000001 := by
  have hword : ∀ t, readWindow 0x04 t = statusWord t := readWindow_regOffset .status
  rw [hword]
  simp [statusWord, frameValid, crcValid, serValid, errFlag, Status.clear, errFieldBits, errCodeBits, bitWord]

/-! ## What BUILD does not read (R109) -/

/-- The frame reads the arbitration bits below `EA(v)` and the command bits below 4 only. -/
theorem assembleFrame_congr {i : Inputs} {arb : Word} {cmd : Byte}
    (harb : ∀ k < expectedArbLen i.variant, arb.getLsbD k = i.arb.getLsbD k)
    (hcmd : ∀ k < cmdLen, cmd.getLsbD k = i.cmd.getLsbD k) :
    assembleFrame { i with arb := arb, cmd := cmd } = assembleFrame i := by
  simp only [assembleFrame, arbitrationSeq, completeCommandField, commandSeq, seqMsb_congr _ _ _ harb,
    seqMsb_congr _ _ _ hcmd]

/-- The width check reads neither the arbitration bits nor the command bits. -/
theorem checkWidths_values (i : Inputs) (arb : Word) (cmd : Byte) :
    checkWidths { i with arb := arb, cmd := cmd } = checkWidths i := rfl

/-- BUILD reads the staging registers through the width check and the assembly, and leaves them as they are. -/
theorem build_setInp {s : State} {i : Inputs} (hcheck : checkWidths i = checkWidths s.inp)
    (hframe : assembleFrame i = assembleFrame s.inp) : build (s.setInp i) = (build s).setInp i := by
  obtain ⟨hnone, hbuild⟩ | ⟨e, hsome, hbuild⟩ := build_cases s
  · have hbuild' := build_of_checkWidths_none (s := s.setInp i) (hcheck.trans hnone)
    rw [hbuild', hbuild, State.setInp_inp, hframe]
    rfl
  · have hbuild' := build_of_checkWidths_some (s := s.setInp i) (hcheck.trans hsome)
    rw [hbuild', hbuild]
    rfl

/-! ## The obligations of the family -/

/-- Settles O25: the changed bits reach neither the width check nor the assembled frame. -/
theorem bitsBeyondLengthDoNotAffectBuild : Obligations.BitsBeyondLengthDoNotAffectBuild := by
  intro u s arb cmd harb hcmd
  have hbuild := build_setInp (s := s) (checkWidths_values s.inp arb cmd) (assembleFrame_congr harb hcmd)
  exact ⟨build s, exec_build u s, (exec_build u _).trans (congrArg _ hbuild)⟩

/-- Settles O20: right lengths pass the width check, so BUILD holds the assembled frame. -/
theorem buildHoldsAssembledFrame : Obligations.BuildHoldsAssembledFrame := by
  intro u s harb hcmd hdata
  have hcheck : checkWidths s.inp = none := (checkWidths_eq_none s.inp).2 ⟨harb, hcmd, hdata⟩
  refine ⟨build s, exec_build u s, ?_⟩
  rw [build_of_checkWidths_none hcheck]
  exact ⟨rfl, readWindow_status_ok_frame _ s⟩

/-- Settles O21: BUILD raises what the width check reports, clause by clause. -/
theorem buildReportsFirstWrongLength : Obligations.BuildReportsFirstWrongLength := by
  intro u s ea hea
  obtain rfl : ea = expectedArbLen s.inp.variant := hea
  have hraise {e : OpError} (h : checkWidths s.inp = some e) : exec (.build u) s = .next (raise e s) :=
    (exec_build u s).trans (congrArg _ (build_of_checkWidths_some h))
  exact ⟨fun ha => hraise (checkWidths_of_arbLen_ne ha), fun ha hc => hraise (checkWidths_of_cmdLen_ne ha hc),
    fun ha hc hd => hraise (checkWidths_of_dataLen_ne ha hc hd)⟩

/-- Settles O26: BUILD raises an error exactly when the width check reports one, and that is a FieldLengthError. -/
theorem buildRaisesOnlyFieldLength : Obligations.BuildRaisesOnlyFieldLength := by
  intro u s
  refine ⟨build s, exec_build u s, ?_⟩
  have hwrong := checkWidths_ne_none s.inp
  obtain ⟨hnone, hbuild⟩ | ⟨e, hsome, hbuild⟩ := build_cases s
  · have hcode : (build s).status.code = .none := by rw [hbuild]; rfl
    refine ⟨.inl hcode, fun h => ?_, fun h => absurd hnone (hwrong.2 h)⟩
    cases hcode.symm.trans h
  · have hcode : (build s).status.code = .fieldLength := by
      rw [hbuild, raise_status, errorStatus_code_of_checkWidths hsome]
    exact ⟨.inr hcode, fun _ => hwrong.1 (by simp [hsome]), fun _ => hcode⟩

end Sys2Proof.Machine
end

/-! # Family 41_checksum: the frame stream, the CRC-15 engine as polynomial division, and CHECKSUM

Lemmas about the stream, the engine over GF(2) and CHECKSUM (spec/41_checksum.md R130 to R137), then the obligations
settled from them. -/
section
namespace Sys2Proof.Machine

/-! ## The frame stream, field by field (R130, R131) -/

theorem stream_eq_cons (F : Frame) : stream F = false :: (F.arb ++ (F.ccf ++ bytesBits F.data.toList)) := by
  simp [stream]

theorem stream_getElem?_arb {F : Frame} {i : Nat} (hi : i < F.arb.length) : (stream F)[1 + i]? = F.arb[i]? := by
  rw [stream_eq_cons, Nat.add_comm, List.getElem?_cons_succ, List.getElem?_append_left hi]

/-- Past the start bit and the arbitration field the stream goes on with the command field and the data. -/
theorem stream_getElem?_after_arb (F : Frame) (i : Nat) :
    (stream F)[1 + F.arb.length + i]? = (F.ccf ++ bytesBits F.data.toList)[i]? := by
  rw [stream_eq_cons, Nat.add_assoc, Nat.add_comm, List.getElem?_cons_succ,
    List.getElem?_append_right (Nat.le_add_right _ _), Nat.add_sub_cancel_left]

theorem stream_getElem?_ccf {F : Frame} {i : Nat} (hi : i < F.ccf.length) :
    (stream F)[1 + F.arb.length + i]? = F.ccf[i]? := by
  rw [stream_getElem?_after_arb, List.getElem?_append_left hi]

theorem stream_getElem?_data (F : Frame) (k : Fin 8) {i : Nat} (hi : i < 8) :
    (stream F)[1 + F.arb.length + (F.ccf.length + (8 * k.val + i))]? = some (F.data[k].getLsbD (7 - i)) := by
  have hk : k.val < F.data.toList.length := by simp
  rw [stream_getElem?_after_arb, List.getElem?_append_right (Nat.le_add_right _ _), Nat.add_sub_cancel_left,
    bytesBits_getElem? F.data.toList k.val i hk hi]
  simp

/-! ## Sequences and registers as polynomials over GF(2) (R132) -/

open Polynomial

/-- `M(x)`: the first element of the sequence is the highest coefficient. -/
noncomputable def seqPoly (s : BitSeq) : (ZMod 2)[X] :=
  ∑ i ∈ Finset.range s.length, if s.getD i false then X ^ (s.length - 1 - i) else 0

/-- The register as a polynomial: bit `k` is the coefficient of `x^k`. -/
noncomputable def registerPoly (c : Crc) : (ZMod 2)[X] := ∑ k ∈ Finset.range 15, if c.getLsbD k then X ^ k else 0

/-- `G(x)` of R132. -/
noncomputable def genPoly : (ZMod 2)[X] := X ^ 15 + X ^ 14 + X ^ 10 + X ^ 8 + X ^ 7 + X ^ 4 + X ^ 3 + 1

@[simp] theorem seqPoly_nil : seqPoly [] = 0 := rfl

/-- A further element moves every coefficient up by one power and becomes the lowest. -/
theorem seqPoly_snoc (s : BitSeq) (b : Bit) : seqPoly (s ++ [b]) = seqPoly s * X + if b then 1 else 0 := by
  have hlen : (s ++ [b]).length = s.length + 1 := by simp
  have hlast : (s ++ [b]).getD s.length false = b := by simp
  rw [seqPoly, hlen, Finset.sum_range_succ, hlast, seqPoly, Finset.sum_mul]
  congr 1
  · refine Finset.sum_congr rfl fun i hi => ?_
    have hi : i < s.length := Finset.mem_range.1 hi
    have hexp : s.length + 1 - 1 - i = (s.length - 1 - i) + 1 := by omega
    rw [List.getD_append _ _ _ _ hi, hexp, pow_succ, ite_mul, zero_mul]
  · simp

@[simp] theorem registerPoly_zero : registerPoly 0#15 = 0 := by simp [registerPoly]

/-- Addition over GF(2) is exclusive or, coefficient by coefficient. -/
theorem registerPoly_xor (c d : Crc) : registerPoly (c ^^^ d) = registerPoly c + registerPoly d := by
  simp only [registerPoly, ← Finset.sum_add_distrib, BitVec.getLsbD_xor]
  refine Finset.sum_congr rfl fun k _ => ?_
  cases c.getLsbD k <;> cases d.getLsbD k <;> simp [CharTwo.add_self_eq_zero]

/-- A shift moves every bit up by one power; bit 14 leaves the register. -/
theorem registerPoly_shiftLeft_one (c : Crc) :
    registerPoly (c <<< 1) = ∑ k ∈ Finset.range 14, if c.getLsbD k then X ^ (k + 1) else 0 := by
  have hlow : (c <<< 1).getLsbD 0 = false := by simp
  rw [registerPoly, Finset.sum_range_succ', hlow, if_neg Bool.false_ne_true, add_zero]
  refine Finset.sum_congr rfl fun k hk => ?_
  have hk : k + 1 < 15 := Nat.succ_lt_succ (Finset.mem_range.1 hk)
  have hbit : (c <<< 1).getLsbD (k + 1) = c.getLsbD k := by
    rw [BitVec.getLsbD_shiftLeft, decide_eq_true hk]
    simp
  rw [hbit]

/-- The shift multiplies by `x`, but for the bit that leaves the register. -/
theorem registerPoly_mul_X (c : Crc) :
    registerPoly c * X = registerPoly (c <<< 1) + if c.getLsbD 14 then X ^ 15 else 0 := by
  rw [registerPoly_shiftLeft_one, registerPoly, Finset.sum_mul, Finset.sum_range_succ]
  simp only [ite_mul, zero_mul, ← pow_succ]

theorem degree_registerPoly_lt (c : Crc) : (registerPoly c).degree < 15 := by
  refine mem_degreeLT.1 (Submodule.sum_mem _ fun k hk => ?_)
  have hk : k < 15 := Finset.mem_range.1 hk
  split
  · exact mem_degreeLT.2 (by rw [degree_X_pow]; exact_mod_cast hk)
  · exact Submodule.zero_mem _

theorem genPoly_monic : genPoly.Monic := by unfold genPoly; monicity!

theorem degree_genPoly : genPoly.degree = 15 := by unfold genPoly; compute_degree!

/-- 0x4599 is `G(x)` without its `x^15` term (spec/00_scope.md R7). -/
theorem genPoly_eq_registerPoly : genPoly = X ^ 15 + registerPoly 0x4599#15 := by
  simp [genPoly, registerPoly, Finset.sum_range_succ]
  ring

/-! ## The engine divides by `G(x)` -/

/-- One turn of the engine is `c(x) · x + b · x^15`, less `G(x)` when the sum has a term `x^15`. -/
theorem registerPoly_crcStep (c : Crc) (b : Bit) :
    registerPoly c * X + (if b then X ^ 15 else 0)
      = registerPoly (crcStep 0x4599 c b) + if Bool.xor b (c.getLsbD 14) then genPoly else 0 := by
  have htwice : (X ^ 15 + X ^ 15 : (ZMod 2)[X]) = 0 := CharTwo.add_self_eq_zero _
  have hpoly : registerPoly 0x4599#15 + genPoly = X ^ 15 := by
    rw [genPoly_eq_registerPoly, add_left_comm, CharTwo.add_self_eq_zero, add_zero]
  rw [registerPoly_mul_X, crcStep_eq, registerPoly_xor, add_assoc, add_assoc]
  refine congrArg (registerPoly (c <<< 1) + ·) ?_
  cases b <;> cases c.getLsbD 14 <;> simp [htwice, hpoly]

/-- The engine keeps its register congruent to `M(x) · x^15` modulo `G(x)`. -/
theorem genPoly_dvd_sub_registerPoly (s : BitSeq) :
    genPoly ∣ seqPoly s * X ^ 15 - registerPoly (crc15Bits Config.fpk s) := by
  induction s using List.reverseRecOn with
  | nil =>
    have hinit : registerPoly (crc15Bits Config.fpk []) = 0 := registerPoly_zero
    rw [hinit, seqPoly_nil, zero_mul, sub_zero]
    exact dvd_zero _
  | append_singleton s b ih =>
    have hpoly : Config.fpk.crcPoly = 0x4599 := rfl
    have hstep := registerPoly_crcStep (crc15Bits Config.fpk s) b
    have hsplit : seqPoly (s ++ [b]) * X ^ 15 - registerPoly (crc15Bits Config.fpk (s ++ [b]))
        = (seqPoly s * X ^ 15 - registerPoly (crc15Bits Config.fpk s)) * X
          + if Bool.xor b ((crc15Bits Config.fpk s).getLsbD 14) then genPoly else 0 := by
      have hlow : (if b then 1 else 0 : (ZMod 2)[X]) * X ^ 15 = if b then X ^ 15 else 0 := by simp
      rw [seqPoly_snoc, crc15Bits_snoc, hpoly]
      linear_combination hstep + hlow
    rw [hsplit]
    refine dvd_add (ih.mul_right X) ?_
    split
    · exact dvd_rfl
    · exact dvd_zero _

theorem seqPoly_modByMonic_genPoly (s : BitSeq) :
    (seqPoly s * X ^ 15) %ₘ genPoly = registerPoly (crc15Bits Config.fpk s) := by
  rw [modByMonic_eq_of_dvd_sub genPoly_monic (genPoly_dvd_sub_registerPoly s)]
  exact (modByMonic_eq_self_iff genPoly_monic).2 ((degree_registerPoly_lt _).trans_eq degree_genPoly.symm)

/-! ## CHECKSUM (R134) -/

theorem exec_checksum (ign : BitVec 28) (s : State) : exec (.checksum ign) s = .next (checksum s) := rfl

theorem perform_of_checksum_op {w : Word} (h : opField w = 2) (s : State) : perform w s = .next (checksum s) := by
  rw [perform_eq, if_neg (by rw [h]; decide), if_pos h]

theorem checksum_of_frame_none {s : State} (h : s.frame = none) : checksum s = raise .noFrame s := by
  simp [checksum, h]

theorem checksum_of_frame_some {s : State} {F : Frame} (h : s.frame = some F) :
    checksum s = { s with crc := some (crc15 s.config F), status := Status.clear } := by
  rw [checksum, h]
  rfl

/-- STATUS with a frame and its checksum held and no error: FRAME_VALID and CRC_VALID, and SER_VALID when a
serialization is held (spec/10_state.md R25). -/
theorem readWindow_status_of_crc {s : State} (hframe : s.frame.isSome) (hcrc : s.crc.isSome)
    (hstatus : s.status = Status.clear) :
    readWindow 0x04 s = if s.ser.isSome then 0x00000007 else 0x00000003 := by
  have hword : readWindow 0x04 s = statusWord s := readWindow_regOffset .status s
  rw [hword, statusWord, frameValid, crcValid, serValid, errFlag, hframe, hcrc, hstatus]
  cases s.ser.isSome <;> rfl

/-! ## The obligations of the family -/

/-- Settles O28: each turn of the engine is one step of the division by `G(x)`, and the register has no term `x^15`. -/
theorem crcIsPolynomialRemainder : Obligations.CrcIsPolynomialRemainder := by
  refine ⟨crc15Bits_nil, fun cfg s b => ?_, seqPoly_modByMonic_genPoly⟩
  have hmask (c : Crc) : c &&& 0x7FFF = c := BitVec.and_allOnes
  rw [crc15Bits_snoc, hmask, crcStep]

/-- Settles O33: the stream's fields in order, with the lengths of a well-formed frame. -/
theorem streamLayout : Obligations.StreamLayout := by
  rintro F L ⟨harb, hccf, -, -⟩ hL
  have hccf : F.ccf.length = 6 := hccf
  obtain rfl : L = F.arb.length := hL.trans harb.symm
  refine ⟨by rw [stream_length, hccf], by rw [stream_eq_cons]; rfl, fun i hi => stream_getElem?_arb hi,
    fun i hi => stream_getElem?_ccf (by omega), fun k i hi => ?_⟩
  rw [← stream_getElem?_data F k hi, hccf]
  congr 1
  omega

/-- Settles O27: CHECKSUM raises NO_FRAME or shows the checksum of the frame held. -/
theorem checksumOfHeldFrame : Obligations.ChecksumOfHeldFrame := by
  refine fun u s => ⟨fun w hop => ?_, fun hnone => ?_, fun F hframe => ⟨checksum s, exec_checksum u s, ?_⟩⟩
  · rw [exec_wr_cmd, perform_of_checksum_op hop, exec_checksum]
  · rw [exec_checksum, checksum_of_frame_none hnone]
    rfl
  · rw [checksum_of_frame_some hframe]
    exact ⟨rfl, readWindow_status_of_crc (Option.isSome_of_eq_some hframe) rfl rfl⟩

/-- Settles O32: the fixed nine bytes, run through the engine by the kernel (R137). -/
theorem engineCheckValue : Obligations.EngineCheckValue := by
  unfold Obligations.EngineCheckValue
  decide +kernel

end Sys2Proof.Machine
end

/-! # Family 42_serialize: the serialized frame, element by element, and SERIALIZE

Lemmas about the serialized frame and SERIALIZE (spec/42_serialize.md R150, R152), then the obligations settled from
them. -/
section
namespace Sys2Proof.Machine

/-! ## The serialized frame, part by part (R150) -/

/-- 82 elements for SHORT, 97 for EXTENDED (spec/41_checksum.md R130). -/
theorem stream_length_of_wf {F : Frame} (hF : F.Wf) : (stream F).length = if F.variant then 97 else 82 := by
  obtain ⟨harb, hccf, -, -⟩ := hF
  rw [stream_length, harb, hccf]
  cases F.variant <;> rfl

theorem serializeFrame_getElem?_stream (cfg : Config) {F : Frame} {i : Nat} (hi : i < (stream F).length) :
    (serializeFrame cfg F)[i]? = (stream F)[i]? := by
  simp only [serializeFrame, List.append_assoc]
  exact List.getElem?_append_left hi

/-- Past the stream the serialized frame goes on with the checksum and the trailer. -/
theorem serializeFrame_getElem?_after_stream (cfg : Config) (F : Frame) (i : Nat) :
    (serializeFrame cfg F)[(stream F).length + i]?
      = (seqMsb (crc15 cfg F) 15 ++ true :: cfg.ackSlotBit :: true :: ones 7)[i]? := by
  simp only [serializeFrame, List.append_assoc]
  rw [List.getElem?_append_right (Nat.le_add_right _ _), Nat.add_sub_cancel_left]
  rfl

theorem serializeFrame_getElem?_checksum (cfg : Config) (F : Frame) {i : Nat} (hi : i < 15) :
    (serializeFrame cfg F)[(stream F).length + i]? = some ((crc15 cfg F).getLsbD (14 - i)) := by
  have hlen : i < (seqMsb (crc15 cfg F) 15).length := by rwa [seqMsb_length]
  rw [serializeFrame_getElem?_after_stream, List.getElem?_append_left hlen, seqMsb_getElem? _ _ _ hi]

/-- The trailer: CRC delimiter, acknowledge slot, acknowledge delimiter, end of frame. -/
theorem serializeFrame_getElem?_trailer (cfg : Config) (F : Frame) (i : Nat) :
    (serializeFrame cfg F)[(stream F).length + (15 + i)]? = (true :: cfg.ackSlotBit :: true :: ones 7)[i]? := by
  have hlen : (seqMsb (crc15 cfg F) 15).length = 15 := seqMsb_length _ _
  rw [serializeFrame_getElem?_after_stream, List.getElem?_append_right (by omega), hlen, Nat.add_sub_cancel_left]

theorem ones_getElem? {n i : Nat} (hi : i < n) : (ones n)[i]? = some true :=
  List.getElem?_replicate_of_lt hi

/-! ## SERIALIZE (R152) -/

theorem exec_serialize (ign : BitVec 28) (s : State) : exec (.serialize ign) s = .next (serialize s) := rfl

theorem perform_of_serialize_op {w : Word} (h : opField w = 3) (s : State) :
    perform w s = .next (serialize s) := by
  rw [perform_eq, if_neg (by rw [h]; decide), if_neg (by rw [h]; decide), if_pos h]

theorem serialize_of_frame_none {s : State} (h : s.frame = none) : serialize s = raise .noFrame s := by
  simp [serialize, h]

theorem serialize_of_frame_some {s : State} {F : Frame} (h : s.frame = some F) :
    serialize s = { s with
      crc := some (crc15 s.config F), ser := some (serializeFrame s.config F), status := Status.clear } := by
  rw [serialize, h]
  rfl

/-- SERIALIZE gives the checksum that CHECKSUM gives (spec/41_checksum.md R134). -/
theorem checksum_crc_eq_serialize_crc {s : State} {F : Frame} (h : s.frame = some F) :
    (checksum s).crc = (serialize s).crc := by
  rw [checksum_of_frame_some h, serialize_of_frame_some h]

/-! ## The obligations of the family -/

/-- Settles O36: past the stream, the checksum from bit 14 down, then the trailer. -/
theorem serializedFrameLayout : Obligations.SerializedFrameLayout := by
  intro cfg F N hF hN
  obtain rfl : N = (stream F).length := hN.trans (stream_length_of_wf hF).symm
  have htrailer := serializeFrame_getElem?_trailer cfg F
  refine ⟨serializeFrame_length_of_wf cfg hF, rfl, fun i hi => serializeFrame_getElem?_stream cfg hi,
    fun i hi => serializeFrame_getElem?_checksum cfg F hi, htrailer 0, htrailer 1, htrailer 2, fun i hi => ?_⟩
  have hpos : (stream F).length + 18 + i = (stream F).length + (15 + (i + 3)) := by omega
  rw [hpos, htrailer]
  exact ones_getElem? hi

/-- Settles O35: SERIALIZE raises NO_FRAME or shows the checksum and the serialization of the frame held. -/
theorem serializeOfHeldFrame : Obligations.SerializeOfHeldFrame := by
  refine fun u s => ⟨fun w hop => ?_, fun hnone => ?_, fun F hframe => ⟨serialize s, exec_serialize u s, ?_, ?_,
    checksum s, exec_checksum u s, checksum_crc_eq_serialize_crc hframe⟩⟩
  · rw [exec_wr_cmd, perform_of_serialize_op hop, exec_serialize]
  · rw [exec_serialize, serialize_of_frame_none hnone]
    rfl
  · exact serialize_of_frame_some hframe
  · rw [serialize_of_frame_some hframe]
    exact readWindow_status_of_crc (Option.isSome_of_eq_some hframe) rfl rfl

end Sys2Proof.Machine
end

/-! # Family 43_control: CLEAR and the reserved opcodes

Lemmas about CLEAR and about STATUS after a reserved opcode (spec/43_control.md R170, R171), then the obligations
settled from them. -/
section
namespace Sys2Proof.Machine

/-! ## CLEAR (R170) -/

theorem exec_clear (ign : BitVec 28) (s : State) : exec (.clear ign) s = .next (clearFrame s) := rfl

theorem perform_of_clear_op {w : Word} (h : opField w = 4) (s : State) : perform w s = .next (clearFrame s) := by
  rw [perform_eq, if_neg (by rw [h]; decide), if_neg (by rw [h]; decide), if_neg (by rw [h]; decide), if_pos h]

theorem clearFrame_eq (s : State) :
    clearFrame s = { s with frame := none, crc := none, ser := none, status := ⟨.none, .none, 0, 0⟩ } := rfl

theorem clearFrame_clearFrame (s : State) : clearFrame (clearFrame s) = clearFrame s := rfl

/-- After CLEAR only the staging registers can show anything but 0. -/
theorem readReg_clearFrame {r : Reg} (hr : isStaging r = false) (s : State) : readReg r (clearFrame s) = 0 := by
  cases r with
  | variantIn | arbLenIn | arbIn | cmdLenIn | cmdIn | dataLenIn | dataIn => cases hr
  | cmd => rfl
  | status =>
    simp [readReg, statusWord, frameValid, crcValid, serValid, errFlag, clearFrame, Status.clear, errFieldBits,
      errCodeBits, bitWord]
  | frameVariant | frameArb | frameCcf | frameData => rfl
  | crc | serLen | serW => rfl

/-- The staging registers end at 0x3C (spec/10_state.md R23). -/
theorem readWindow_clearFrame {off : Byte} (ha : off.toNat % 4 = 0) (hlo : 0x40 ≤ off.toNat) (s : State) :
    readWindow off (clearFrame s) = 0 := by
  cases hr : regAt off with
  | none => exact readWindow_of_reserved hr _
  | some r =>
    obtain ⟨hstaging, -⟩ := regAt_kind ha hr
    have hro : isStaging r = false := Bool.eq_false_iff.2 (mt hstaging.1 (by omega))
    rw [readWindow_of_regAt hr, readReg_clearFrame hro]

/-! ## STATUS after a reserved opcode (R171) -/

/-- Bits [2:0] of STATUS are the three valid flags and nothing else (spec/10_state.md R25). -/
theorem statusWord_flags_congr {s t : State} (hframe : t.frame = s.frame) (hcrc : t.crc = s.crc)
    (hser : t.ser = s.ser) : (statusWord t).extractLsb' 0 3 = (statusWord s).extractLsb' 0 3 := by
  ext i hi
  rw [BitVec.getElem_extractLsb', BitVec.getElem_extractLsb', statusWord_getLsbD t _ (by omega),
    statusWord_getLsbD s _ (by omega)]
  simp only [frameValid, crcValid, serValid, hframe, hcrc, hser]
  interval_cases i <;> rfl

/-- ERR = 1 and ERR_CODE = 3 stand above the three flags, and the other fields are 0: for each value of the flags,
a closed word. -/
theorem statusWord_reserved_error (s : State) : (statusWord (reserved s)).extractLsb' 3 29 = 0x7 := by
  have herr : errFlag (reserved s) = true := rfl
  have hstatus : (reserved s).status = ⟨.illegalOp, .none, 0, 0⟩ := rfl
  rw [statusWord, herr, hstatus]
  cases serValid (reserved s) <;> cases crcValid (reserved s) <;> cases frameValid (reserved s) <;> rfl

/-! ## The obligations of the family -/

/-- Settles O37: CLEAR leaves nothing for a register other than a staging register to show. -/
theorem clearDropsFrame : Obligations.ClearDropsFrame := by
  refine fun u s => ⟨clearFrame s, exec_clear u s, clearFrame_eq s, ?_,
    fun off ha hlo => readWindow_clearFrame ha hlo s, ?_, fun w hop => ?_⟩
  · exact (readWindow_regOffset .status _).trans (readReg_clearFrame rfl s)
  · rw [exec_clear, clearFrame_clearFrame]
  · rw [exec_wr_cmd, perform_of_clear_op hop]

/-- Settles O38: every reserved opcode runs `reserved`, which raises ILLEGAL_OP. -/
theorem reservedOpcodesRaiseIllegalOp : Obligations.ReservedOpcodesRaiseIllegalOp := by
  intro u s i hi
  have hexec : exec i s = .next (reserved s) := by
    cases i with
    | build | checksum | serialize | clear | wr | rd => simp at hi
    | _ => rfl
  have hword : ∀ t, readWindow 0x04 t = statusWord t := readWindow_regOffset .status
  refine ⟨reserved s, hexec, reserved_eq s, ?_, ?_, fun w hop => ?_⟩
  · rw [hword, hword]
    exact statusWord_flags_congr rfl rfl rfl
  · rw [hword]
    exact statusWord_reserved_error s
  · rw [exec_wr_cmd, perform_of_reserved_op hop]

end Sys2Proof.Machine
end

/-! # The two encoded forms: the encoder and the decoder are each other's inverse

Lemmas about command words and host access words (spec/30_encoding.md R70, R71, R76), then the obligations settled
from them. -/
section
namespace Sys2Proof.Machine

/-! ## Round trips -/

/-- The fields that the encoder put together are the fields the decoder reads. -/
theorem decode_encode (i : Instr) : decode (encode i) = i := by
  cases i with
  | wr off data => simp [encode, decode, decodeAccess]
  | rd off ign => simp [encode, decode, decodeAccess]
  | _ ign =>
    simp only [encode, decode, decodeCommand, opField_commandWord, ignField_commandWord]
    rfl

/-- The decoder picks the row of R71 whose OP the word has, and keeps the other bits. -/
theorem encode_decodeCommand (w : Word) : encode (decodeCommand w) = .cmd32 w := by
  have hfields : encode (decodeCommand w) = .cmd32 (commandWord (opField w) (ignField w)) := by
    unfold decodeCommand
    rcases op_cases (opField w) with h | h | h | h | h | h | h | h | h | h | h | h | h | h | h | h <;>
      simp only [h] <;> rfl
  rw [hfields, commandWord_fields]

theorem encode_decodeAccess (w : BitVec 41) : encode (decodeAccess w) = .haw41 w := by
  have hfields : encode (decodeAccess w)
      = .haw41 (accessWord (BitVec.ofBool (hawWrite w)) (hawOff w) (hawData w)) := by
    unfold decodeAccess
    cases hawWrite w <;> rfl
  rw [hfields, accessWord_fields]

/-! ## Fields by their arithmetic value -/

/-- OP is `w & 0x0000000F` (R71). -/
theorem opField_of_and_eq {w : Word} {op : BitVec 4} (h : w &&& 0x0000000F = op.setWidth 32) : opField w = op := by
  have hmask : w.toNat &&& 0xF = w.toNat % 2 ^ 4 := Nat.and_two_pow_sub_one_eq_mod w.toNat 4
  have hop : w.toNat &&& 0xF = op.toNat % 2 ^ 32 := by simpa using congrArg BitVec.toNat h
  apply BitVec.eq_of_toNat_eq
  rw [opField, BitVec.extractLsb'_toNat, Nat.shiftRight_zero]
  omega

/-- A command word decodes to the instruction whose encoding has its OP and its ignored bits. -/
theorem decode_cmd32_of_and_eq {w : Word} {op : BitVec 4} {i : Instr} (h : w &&& 0x0000000F = op.setWidth 32)
    (hi : encode i = .cmd32 (commandWord op (ignField w))) : decode (.cmd32 w) = i := by
  rw [← commandWord_fields w, opField_of_and_eq h, ← hi, decode_encode]

/-- W, OFF and DATA stand side by side in the host access word (R70). -/
theorem accessWord_toNat (b : BitVec 1) (off : Byte) (d : Word) :
    (accessWord b off d).toNat = b.toNat * 2 ^ 40 + off.toNat * 2 ^ 32 + d.toNat := by
  have hoff : off.toNat < 2 ^ 8 := off.isLt
  have hd : d.toNat < 2 ^ 32 := d.isLt
  rw [accessWord, BitVec.toNat_append, BitVec.toNat_append, ← Nat.shiftLeft_add_eq_or_of_lt hoff,
    ← Nat.shiftLeft_add_eq_or_of_lt hd, Nat.shiftLeft_eq, Nat.shiftLeft_eq]
  ring

/-! ## The obligations -/

/-- Settles O1: each field of an encoded instruction is decoded back. -/
theorem decodeOfEncodeIsIdentity : Obligations.DecodeOfEncodeIsIdentity := decode_encode

/-- Settles O2: a word is its fields put together, and decoding keeps every field. -/
theorem encodeOfDecodeIsIdentity : Obligations.EncodeOfDecodeIsIdentity := by
  intro w
  cases w with
  | cmd32 w => exact encode_decodeCommand w
  | haw41 w => exact encode_decodeAccess w

/-- Settles O3: a write of CMD is `perform`, and each row of R71 is the one the encoder writes with its OP. -/
theorem opcodeMapOfCommandWords : Obligations.OpcodeMapOfCommandWords := by
  intro w
  refine ⟨fun s => (exec_wr_cmd w s).trans (exec_decodeCommand w s).symm, ?_⟩
  exact ⟨fun h => decode_cmd32_of_and_eq (op := 0x0) h rfl, fun h => decode_cmd32_of_and_eq (op := 0x1) h rfl,
    fun h => decode_cmd32_of_and_eq (op := 0x2) h rfl, fun h => decode_cmd32_of_and_eq (op := 0x3) h rfl,
    fun h => decode_cmd32_of_and_eq (op := 0x4) h rfl, fun h => decode_cmd32_of_and_eq (op := 0x5) h rfl,
    fun h => decode_cmd32_of_and_eq (op := 0x6) h rfl, fun h => decode_cmd32_of_and_eq (op := 0x7) h rfl,
    fun h => decode_cmd32_of_and_eq (op := 0x8) h rfl, fun h => decode_cmd32_of_and_eq (op := 0x9) h rfl,
    fun h => decode_cmd32_of_and_eq (op := 0xA) h rfl, fun h => decode_cmd32_of_and_eq (op := 0xB) h rfl,
    fun h => decode_cmd32_of_and_eq (op := 0xC) h rfl, fun h => decode_cmd32_of_and_eq (op := 0xD) h rfl,
    fun h => decode_cmd32_of_and_eq (op := 0xE) h rfl, fun h => decode_cmd32_of_and_eq (op := 0xF) h rfl⟩

/-- Settles O4: the word with these field values is the one the encoder writes for the access. -/
theorem accessWordFields : Obligations.AccessWordFields := by
  intro b off d w hw
  have hword : w = accessWord (BitVec.ofBool b) off d := by
    apply BitVec.eq_of_toNat_eq
    rw [hw, accessWord_toNat]
    cases b <;> simp
  have hencode : encode (if b then .wr off d else .rd off d) = .haw41 w := by
    rw [hword]
    cases b <;> rfl
  rw [← hencode, decode_encode]

/-- Settles O5: three fixed statements, encoded and decoded by evaluation (R77). -/
theorem workedEncodings : Obligations.WorkedEncodings := by
  unfold Obligations.WorkedEncodings
  decide

/-- Settles O6: each expansion, with the offsets of R23 evaluated. -/
theorem pseudoInstructionExpansions : Obligations.PseudoInstructionExpansions :=
  ⟨rfl, rfl, rfl, rfl, fun _ => rfl, fun _ _ _ _ _ _ _ _ _ _ _ _ => rfl⟩

/-- Settles O7: each word of an assembled program is the encoding of an instruction, which decodes back. -/
theorem assembledWordsDecode : Obligations.AssembledWordsDecode := by
  intro p
  rw [assemble, List.map_map]
  exact List.map_congr_left fun i _ => congrArg some (decode_encode i)

end Sys2Proof.Machine
end

/-! # Steps: what an input can do, the invariant, and how a host program ends

The inversion lemma of a step (`step_effect`) and its consequences field by field (spec/20_memory.md R62;
spec/70_reset_and_hazards.md R200, R204, R208), then the obligations settled from them. -/
section
namespace Sys2Proof.Machine

/-! ## A step, by the next input -/

theorem step_of_nil {s : State} (h : s.program = []) : step s = .next s := by
  simp [step, nextInput, h]

theorem step_of_word {s : State} {w : HostWord} {rest : List HostInput} (h : s.program = .word w :: rest) :
    step s = exec (decode w) (s.setProgram rest) := by
  simp [step, nextInput, h]

theorem step_of_access {s : State} {a : Access} {rest : List HostInput} (h : s.program = .access a :: rest) :
    step s = portAccess a (s.setProgram rest) := by
  simp [step, nextInput, h]

theorem step_of_reset {s : State} {rest : List HostInput} (h : s.program = .reset :: rest) :
    step s = .next (assertReset (s.setProgram rest)) := by
  simp [step, nextInput, h]

/-- A command word performs the operation of its OP. -/
theorem exec_decode_cmd32 (w : Word) (s : State) : exec (decode (.cmd32 w)) s = perform w s :=
  exec_decodeCommand w s

/-- A host access word is a 4-byte access at the port (spec/30_encoding.md R70). -/
theorem exec_decode_haw41 (w : BitVec 41) (s : State) :
    exec (decode (.haw41 w)) s = portAccess ⟨hawWrite w, 4, hawOff w, hawData w⟩ s := by
  rw [decode, decodeAccess]
  cases hawWrite w <;> rfl

/-- The word placed by `withFetchWord` is the next input, and nothing else is changed (log 1). -/
theorem withFetchWord_of_decodeTableWord {nbits w : Nat} {i : Instr} (h : decodeTableWord nbits w = some i)
    (s : State) : ∃ word, decode word = i ∧ s.withFetchWord nbits w = pushInput (.word word) s := by
  unfold decodeTableWord at h
  unfold State.withFetchWord
  cases hword : hostWord nbits w with
  | ok word => exact ⟨word, by simpa [hword] using h, rfl⟩
  | error e => simp [hword] at h

/-! ## What an input can do -/

/-- The input is a 4-byte write of `v` at `off`: a host access word, or an access. -/
def HostInput.IsWrite (x : HostInput) (off : Byte) (v : Word) : Prop :=
  (∃ w, x = .word w ∧ decode w = .wr off v) ∨ x = .access ⟨true, 4, off, v⟩

/-- The input starts an operation: a command word, or a 4-byte write of CMD. -/
def HostInput.IsCommand (x : HostInput) : Prop := (∃ w, x = .word (.cmd32 w)) ∨ ∃ v, x.IsWrite 0x00 v

/-- What an input can do to the state it was taken from. -/
inductive InputEffect (s : State) : HostInput → State → Prop where
  | operated {x : HostInput} {t : State} : x.IsCommand → Operated s t → InputEffect s x t
  | stored {x : HostInput} {off : Byte} {v : Word} {r : Reg} :
      x.IsWrite off v → off.toNat % 4 = 0 → regAt off = some r → InputEffect s x (storeReg r v s)
  | ignored {x : HostInput} : InputEffect s x s
  | recorded {x : HostInput} (v : Word) : InputEffect s x (s.recordRead v)
  | reset : InputEffect s .reset (assertReset s)

/-- An accepted access has one of these effects, for every input that stands for it. -/
theorem InputEffect.of_portAccess {a : Access} {x : HostInput} {s t : State}
    (hx : a.size = 4 → a.write = true → x.IsWrite a.off a.data) (h : portAccess a s = .next t) :
    InputEffect s x t := by
  obtain ⟨hsize, ha, ⟨hw, hoff, hop⟩ | ⟨r, hw, hr, -, rfl⟩ | ⟨-, -, rfl⟩ | ⟨-, rfl⟩⟩ := portAccess_next h
  · exact .operated (.inr ⟨a.data, hoff ▸ hx hsize hw⟩) hop
  · exact .stored (hx hsize hw) ha hr
  · exact .ignored
  · exact .recorded _

/-- All that a step can do when it answers a next state. -/
theorem step_effect {s t : State} (h : step s = .next t) :
    (s.program = [] ∧ t = s) ∨ ∃ x rest, s.program = x :: rest ∧ InputEffect (s.setProgram rest) x t := by
  obtain hidle | ⟨x, rest, hp, ⟨w, rfl, hw⟩ | ⟨a, rfl, ha⟩ | ⟨rfl, rfl⟩⟩ := step_cases h
  · exact .inl hidle
  · refine .inr ⟨_, rest, hp, ?_⟩
    cases w with
    | cmd32 w =>
      obtain ⟨u, hu, hop⟩ := perform_cases w (s.setProgram rest)
      rw [exec_decode_cmd32, hu] at hw
      cases hw
      exact .operated (.inl ⟨w, rfl⟩) hop
    | haw41 w =>
      rw [exec_decode_haw41] at hw
      refine .of_portAccess (fun _ hwrite => .inl ⟨_, rfl, ?_⟩) hw
      exact if_pos hwrite
  · refine .inr ⟨_, rest, hp, .of_portAccess (fun hsize hwrite => .inr ?_) ha⟩
    cases a
    cases hsize
    cases hwrite
    rfl
  · exact .inr ⟨_, rest, hp, .reset⟩

/-! ## The effect, field by field -/

/-- The program and the parameters stay, and the record of reads grows by at most one value. -/
theorem InputEffect.host_fields {s t : State} {x : HostInput} (h : InputEffect s x t) :
    t.program = s.program ∧ t.config = s.config ∧ (t.reads = s.reads ∨ ∃ v, t.reads = s.reads ++ [v]) := by
  cases h with
  | operated _ hop =>
    obtain ⟨-, hconfig, hprogram, hreads⟩ := hop.frame
    exact ⟨hprogram, hconfig, .inl hreads⟩
  | stored | ignored | reset => exact ⟨rfl, rfl, .inl rfl⟩
  | recorded v => exact ⟨rfl, rfl, .inr ⟨v, rfl⟩⟩

/-- Only a command or reset changes what the operations write (spec/70_reset_and_hazards.md R204). -/
theorem InputEffect.results {s t : State} {x : HostInput} (h : InputEffect s x t) :
    x = .reset ∨ x.IsCommand ∨ (t.frame, t.crc, t.ser, t.status) = (s.frame, s.crc, s.ser, s.status) := by
  cases h with
  | operated hx _ => exact .inr (.inl hx)
  | stored | ignored | recorded => exact .inr (.inr rfl)
  | reset => exact .inl rfl

/-- Only a write of an RW register or reset changes the staging area, and the RW registers lie at 0x08 to 0x3C. -/
theorem InputEffect.inp {s t : State} {x : HostInput} (h : InputEffect s x t) :
    x = .reset ∨ (∃ off v, 0x08 ≤ off.toNat ∧ off.toNat ≤ 0x3C ∧ x.IsWrite off v) ∨ t.inp = s.inp := by
  cases h with
  | operated _ hop =>
    obtain ⟨hinp, -⟩ := hop.frame
    exact .inr (.inr hinp)
  | @stored _ off v r hx ha hr =>
    obtain ⟨hstaging, -⟩ := regAt_kind ha hr
    cases hrw : isStaging r with
    | true =>
      obtain ⟨hlo, hhi⟩ := hstaging.1 hrw
      exact .inr (.inl ⟨off, v, hlo, hhi, hx⟩)
    | false => exact .inr (.inr (storeInput_of_not_staging hrw v s.inp))
  | ignored | recorded => exact .inr (.inr rfl)
  | reset => exact .inl rfl

/-- CHECKSUM keeps the frame. -/
theorem checksum_frame (s : State) : (checksum s).frame = s.frame := by
  cases hF : s.frame with
  | none => rw [checksum_of_frame_none hF, raise_frame, hF]
  | some F => rw [checksum_of_frame_some hF, hF]

/-- SERIALIZE keeps the frame. -/
theorem serialize_frame (s : State) : (serialize s).frame = s.frame := by
  cases hF : s.frame with
  | none => rw [serialize_of_frame_none hF, raise_frame, hF]
  | some F => rw [serialize_of_frame_some hF, hF]

/-- An operation keeps the frame, drops it, or replaces it by the frame assembled from inputs of the right lengths. -/
theorem Operated.held_frame {s t : State} (h : Operated s t) :
    t.frame = s.frame ∨ t.frame = none ∨ (t.frame = some (assembleFrame s.inp) ∧ checkWidths s.inp = none) := by
  cases h with
  | built =>
    obtain ⟨hcheck, hbuild⟩ | ⟨e, -, hbuild⟩ := build_cases s <;> rw [hbuild]
    · exact .inr (.inr ⟨rfl, hcheck⟩)
    · exact .inl rfl
  | checksummed => exact .inl (checksum_frame s)
  | serialized => exact .inl (serialize_frame s)
  | cleared => exact .inr (.inl rfl)
  | reserved => exact .inl rfl

theorem InputEffect.held_frame {s t : State} {x : HostInput} (h : InputEffect s x t) :
    t.frame = s.frame ∨ t.frame = none ∨ (t.frame = some (assembleFrame s.inp) ∧ checkWidths s.inp = none) := by
  cases h with
  | operated _ hop => exact hop.held_frame
  | stored | ignored | recorded => exact .inl rfl
  | reset => exact .inr (.inl rfl)

/-! ## The invariant -/

/-- The invariant speaks of the results, `status` and the parameters only. -/
theorem State.Inv.congr {s t : State} (hs : s.Inv) (hframe : t.frame = s.frame) (hcrc : t.crc = s.crc)
    (hser : t.ser = s.ser) (hstatus : t.status = s.status) (hconfig : t.config = s.config) : t.Inv := by
  obtain ⟨hwf, hcrcF, hserF, hst⟩ := hs
  constructor <;> simp only [hframe, hcrc, hser, hstatus, hconfig] <;> assumption

/-- Setting a consistent status keeps the invariant. -/
theorem State.Inv.setStatus {s : State} (hs : s.Inv) {st : Status} (hst : st.Consistent) :
    (s.setStatus st).Inv :=
  ⟨hs.frameWf, hs.crcOfFrame, hs.serOfFrame, hst⟩

/-- The results of a held frame: a well-formed frame with its checksum or none, and its serialization, which is shown
only with the checksum, or none. -/
theorem State.Inv.of_frame {s : State} {F : Frame} (hF : s.frame = some F) (hwf : F.Wf)
    (hcrc : s.crc = none ∨ s.crc = some (crc15 s.config F))
    (hser : s.ser = none ∨ s.crc = some (crc15 s.config F) ∧ s.ser = some (serializeFrame s.config F))
    (hst : s.status.Consistent) : s.Inv where
  frameWf G hG := by
    obtain rfl : F = G := Option.some.inj (hF.symm.trans hG)
    exact hwf
  crcOfFrame c hc := by
    obtain h | h := hcrc
    · cases h.symm.trans hc
    · exact ⟨F, hF, (Option.some.inj (h.symm.trans hc)).symm⟩
  serOfFrame b hb := by
    obtain h | ⟨hc, h⟩ := hser
    · cases h.symm.trans hb
    · exact ⟨F, hF, hc, (Option.some.inj (h.symm.trans hb)).symm⟩
  statusConsistent := hst

/-- With no frame, checksum or serialization held, the invariant is about `status` alone. -/
theorem State.Inv.of_empty {s : State} (hframe : s.frame = none) (hcrc : s.crc = none) (hser : s.ser = none)
    (hst : s.status.Consistent) : s.Inv := by
  constructor <;> simp [hframe, hcrc, hser, hst]

theorem Status.clear_consistent : Status.clear.Consistent := ⟨rfl, rfl, rfl⟩

theorem errorStatus_noFrame_consistent : (errorStatus .noFrame).Consistent := ⟨rfl, rfl, rfl⟩

theorem errorStatus_illegalOp_consistent : (errorStatus .illegalOp).Consistent := ⟨rfl, rfl, rfl⟩

theorem State.Inv.build {s : State} (hs : s.Inv) : (build s).Inv := by
  obtain ⟨-, hbuild⟩ | ⟨e, he, hbuild⟩ := build_cases s <;> rw [hbuild]
  · exact .of_frame rfl (assembleFrame_wf s.inp) (.inl rfl) (.inl rfl) Status.clear_consistent
  · exact hs.setStatus (checkWidths_consistent he)

/-- A serialization already held is that of the frame CHECKSUM reads. -/
theorem State.Inv.checksum {s : State} (hs : s.Inv) : (checksum s).Inv := by
  cases hF : s.frame with
  | none =>
    rw [checksum_of_frame_none hF]
    exact hs.setStatus errorStatus_noFrame_consistent
  | some F =>
    rw [checksum_of_frame_some hF]
    refine .of_frame hF (hs.frameWf F hF) (.inr rfl) ?_ Status.clear_consistent
    cases hb : s.ser with
    | none => exact .inl rfl
    | some b =>
      obtain ⟨G, hG, -, hser⟩ := hs.serOfFrame b hb
      obtain rfl : F = G := Option.some.inj (hF.symm.trans hG)
      exact .inr ⟨rfl, congrArg some hser⟩

theorem State.Inv.serialize {s : State} (hs : s.Inv) : (serialize s).Inv := by
  cases hF : s.frame with
  | none =>
    rw [serialize_of_frame_none hF]
    exact hs.setStatus errorStatus_noFrame_consistent
  | some F =>
    rw [serialize_of_frame_some hF]
    exact .of_frame hF (hs.frameWf F hF) (.inr rfl) (.inr ⟨rfl, rfl⟩) Status.clear_consistent

theorem Operated.inv {s t : State} (h : Operated s t) (hs : s.Inv) : t.Inv := by
  cases h with
  | built => exact hs.build
  | checksummed => exact hs.checksum
  | serialized => exact hs.serialize
  | cleared => exact .of_empty rfl rfl rfl Status.clear_consistent
  | reserved => exact hs.setStatus errorStatus_illegalOp_consistent

theorem InputEffect.inv {s t : State} {x : HostInput} (h : InputEffect s x t) (hs : s.Inv) : t.Inv := by
  cases h with
  | operated _ hop => exact hop.inv hs
  | stored | recorded => exact hs.congr rfl rfl rfl rfl rfl
  | ignored => exact hs
  | reset => exact .of_empty rfl rfl rfl Status.clear_consistent

/-! ## Steps that stop, and runs -/

/-- The port answers a next state, or faults and names an access that is mis-sized or misaligned (R54). -/
theorem portAccess_next_or_fault (a : Access) (s : State) :
    (∃ t, portAccess a s = .next t) ∨ (portAccess a s = .fault (.busAccess a.write a.size a.off)
      ∧ (a.size ≠ 4 ∨ a.off.toNat % 4 ≠ 0)) := by
  by_cases h : accessAccepted a = true
  · exact .inl (portAccess_completes h s)
  · exact .inr ⟨portAccess_of_not_accepted h s, not_and_or.1 (mt (accessAccepted_iff a).2 h)⟩

/-- Settles O15: of the inputs only an access can stop a step, and it stops at the port. -/
theorem onlyBadAccessesStop : Obligations.OnlyBadAccessesStop := by
  intro s
  cases hp : s.program with
  | nil => exact .inl ⟨s, step_of_nil hp⟩
  | cons x rest =>
    cases x with
    | reset => exact .inl ⟨_, step_of_reset hp⟩
    | access a =>
      rw [step_of_access hp]
      refine (portAccess_next_or_fault a _).imp_right fun ⟨hfault, hbad⟩ => ?_
      exact ⟨a.write, a.size, a.off, hfault, hbad, .inl ⟨a.data, rest, rfl⟩⟩
    | word w =>
      rw [step_of_word hp]
      cases w with
      | cmd32 w =>
        obtain ⟨t, ht, -⟩ := perform_cases w (s.setProgram rest)
        exact .inl ⟨t, (exec_decode_cmd32 w _).trans ht⟩
      | haw41 w =>
        rw [exec_decode_haw41]
        refine (portAccess_next_or_fault _ _).imp_right fun ⟨hfault, hbad⟩ => ?_
        exact ⟨_, _, _, hfault, hbad, .inr ⟨.haw41 w, hawData w, rest, rfl, rfl, rfl⟩⟩

/-- A step takes the next input off the program. -/
theorem step_program {s t : State} (h : step s = .next t) : t.program = s.program.tail := by
  obtain ⟨hnil, rfl⟩ | ⟨x, rest, hp, heffect⟩ := step_effect h
  · rw [hnil, List.tail_nil]
  · obtain ⟨hprogram, -⟩ := heffect.host_fields
    rw [hprogram, State.setProgram_program, hp, List.tail_cons]

theorem runProgram_of_nil (n : Nat) {s : State} (h : s.program = []) : runProgram n s = .normal s := by
  cases n <;> rw [runProgram, if_pos h]

theorem runProgram_succ_of_next (n : Nat) {s t : State} (hp : s.program ≠ []) (h : step s = .next t) :
    runProgram (n + 1) s = runProgram n t := by
  rw [runProgram, if_neg hp, h]

theorem runProgram_succ_of_fault (n : Nat) {s : State} {r : Fault} (hp : s.program ≠ []) (h : step s = .fault r) :
    runProgram (n + 1) s = .faulted r s := by
  rw [runProgram, if_neg hp, h]

/-- With a step for each input left, a run ends normally or at a refused access (R208). -/
theorem runProgram_ends (n : Nat) (s : State) (hn : s.program.length ≤ n) :
    (∃ t, runProgram n s = .normal t ∧ t.program = [])
      ∨ ∃ r t, runProgram n s = .faulted r t ∧ step t = .fault r ∧ t.program ≠ [] := by
  induction n generalizing s with
  | zero =>
    have hnil : s.program = [] := List.eq_nil_of_length_eq_zero (Nat.le_zero.1 hn)
    exact .inl ⟨s, runProgram_of_nil 0 hnil, hnil⟩
  | succ n ih =>
    by_cases hnil : s.program = []
    · exact .inl ⟨s, runProgram_of_nil _ hnil, hnil⟩
    obtain ⟨t, ht⟩ | ⟨b, size, off, hfault, -⟩ := onlyBadAccessesStop s
    · rw [runProgram_succ_of_next n hnil ht]
      refine ih t ?_
      rw [step_program ht, List.length_tail]
      omega
    · exact .inr ⟨_, s, runProgram_succ_of_fault n hnil hfault, hfault, hnil⟩

/-! ## The other obligations -/

/-- Settles O13: every effect of an input keeps the invariant, and taking the input off does not touch it. -/
theorem everyStepKeepsInvariant : Obligations.EveryStepKeepsInvariant := by
  intro s t hs h
  obtain ⟨-, rfl⟩ | ⟨x, rest, -, heffect⟩ := step_effect h
  · exact hs
  · exact heffect.inv (hs.congr rfl rfl rfl rfl rfl)

/-- Settles O12: at reset nothing is held. -/
theorem invariantHoldsAtReset : Obligations.InvariantHoldsAtReset :=
  State.Inv.of_empty rfl rfl rfl Status.clear_consistent

/-- Settles O14: the length of the program is fuel enough. -/
theorem hostProgramEnds : Obligations.HostProgramEnds := by
  intro s
  obtain ⟨t, hrun, hend⟩ | ⟨r, t, hrun, hend⟩ := runProgram_ends _ s le_rfl
  · rw [hrun]
    exact hend
  · rw [hrun]
    exact hend

/-- Settles O16: the input is taken off first, and no effect writes the program or the parameters. -/
theorem stepTakesOneInputInOrder : Obligations.StepTakesOneInputInOrder := by
  intro s t h
  refine ⟨step_program h, ?_⟩
  obtain ⟨-, rfl⟩ | ⟨x, rest, -, heffect⟩ := step_effect h
  · exact ⟨rfl, .inl rfl⟩
  · obtain ⟨-, hconfig, hreads⟩ := heffect.host_fields
    exact ⟨hconfig, hreads⟩

/-- Settles O17: of the effects only an operation or reset writes them. -/
theorem onlyCommandsChangeResults : Obligations.OnlyCommandsChangeResults := by
  intro s t h hne
  obtain ⟨-, rfl⟩ | ⟨x, rest, hp, heffect⟩ := step_effect h
  · exact absurd rfl hne
  refine ⟨x, rest, hp, ?_⟩
  obtain hreset | (hword | ⟨v, ⟨w, hw, hdecode⟩ | haccess⟩) | hsame := heffect.results
  · exact .inl hreset
  · exact .inr (.inl hword)
  · exact .inr (.inr (.inl ⟨w, v, hw, hdecode⟩))
  · exact .inr (.inr (.inr ⟨v, haccess⟩))
  · exact absurd hsame hne

/-- Settles O18: of the effects only a store of an RW register or reset writes the staging area. -/
theorem onlyStagingWritesChangeInputs : Obligations.OnlyStagingWritesChangeInputs := by
  intro s t h hne
  obtain ⟨-, rfl⟩ | ⟨x, rest, hp, heffect⟩ := step_effect h
  · exact absurd rfl hne
  exact ⟨x, rest, hp, heffect.inp.imp_right fun hwrite => hwrite.resolve_right hne⟩

/-- Settles O19: the right lengths are those that pass the width check. -/
theorem heldFrameIsNeverEdited : Obligations.HeldFrameIsNeverEdited := by
  intro s t h
  obtain ⟨-, rfl⟩ | ⟨x, rest, -, heffect⟩ := step_effect h
  · exact .inl rfl
  refine heffect.held_frame.imp_right (Or.imp_right fun ⟨hframe, hcheck⟩ => ⟨hframe, ?_⟩)
  exact (checkWidths_eq_none s.inp).1 hcheck

/-- Settles O8: a word placed by `withFetchWord` is the next input, and taking it off gives the state before. -/
theorem stepRunsDecodedInstruction : Obligations.StepRunsDecodedInstruction := by
  refine ⟨fun s w rest h => step_of_word h, fun s nbits w i h => ?_⟩
  obtain ⟨word, rfl, hpush⟩ := withFetchWord_of_decodeTableWord h s
  rw [hpush]
  exact step_of_word (rest := s.program) rfl

/-- Settles O9: WR and RD are 4-byte accesses at the port. -/
theorem stepTakesAccessOrIdles : Obligations.StepTakesAccessOrIdles := by
  refine ⟨fun s a rest h => step_of_access h, fun s h => step_of_nil h, fun s b off d => ?_⟩
  cases b <;> rfl

/-- Settles O10: `assertReset` sets the record of R20 and leaves the rest. -/
theorem resetInputSetsResetState : Obligations.ResetInputSetsResetState := fun _ _ h => step_of_reset h

/-- Settles O46: the run's equation at a fault. -/
theorem refusedAccessEndsRun : Obligations.RefusedAccessEndsRun :=
  fun _ n _ hp h => runProgram_succ_of_fault n hp h

end Sys2Proof.Machine
end

/-! # What the host reads after BUILD

Lemmas about STATUS and the frame registers after BUILD (spec/40_build.md R105 to R107), then the obligations settled
from them. -/
section
namespace Sys2Proof.Machine

/-! ## A failed BUILD -/

/-- With a length wrong, BUILD raises the FieldLengthError that the width check reports. -/
theorem build_of_wrong_length {s : State} (h : s.inp.arbLen.toNat ≠ expectedArbLen s.inp.variant
      ∨ s.inp.cmdLen.toNat ≠ cmdLen ∨ s.inp.dataLen.toNat ≠ dataBytes) :
    ∃ e, checkWidths s.inp = some e ∧ build s = raise e s := by
  obtain ⟨e, he⟩ := Option.ne_none_iff_exists'.1 ((checkWidths_ne_none s.inp).2 h)
  exact ⟨e, he, build_of_checkWidths_some he⟩

/-- Settles O22: BUILD raises an error, and STATUS shows what `raise` records. -/
theorem failedBuildStatusWord : Obligations.FailedBuildStatusWord := by
  intro u s hwrong
  obtain ⟨e, he, hbuild⟩ := build_of_wrong_length hwrong
  have hword : ∀ t, readWindow 0x04 t = statusWord t := readWindow_regOffset .status
  have hcode : (raise e s).status.code = .fieldLength := errorStatus_code_of_checkWidths he
  obtain ⟨herrCode, hfield, -, hexpected, hactual⟩ := statusWord_fields (raise e s)
  refine ⟨raise e s, (exec_build u s).trans (congrArg _ hbuild), ?_⟩
  rw [hword, hword]
  refine ⟨statusWord_flags_congr rfl rfl rfl, ?_, ?_, hfield, hexpected, hactual⟩
  · exact (statusWord_getLsbD _ 3 (by decide)).trans (decide_eq_true (by rw [hcode]; decide))
  · rw [herrCode, hcode]
    rfl

/-- Settles O24: the width check names a field whose length is wrong. -/
theorem buildFailsOnEveryWrongLength : Obligations.BuildFailsOnEveryWrongLength := by
  intro u s hwrong
  obtain ⟨e, he, hbuild⟩ := build_of_wrong_length hwrong
  refine ⟨raise e s, (exec_build u s).trans (congrArg _ hbuild), errorStatus_code_of_checkWidths he, ?_⟩
  obtain ⟨rfl, hne⟩ | ⟨rfl, hne⟩ | ⟨rfl, hne⟩ := checkWidths_eq_some he
  · exact .inl ⟨rfl, hne⟩
  · exact .inr (.inl ⟨rfl, hne⟩)
  · exact .inr (.inr ⟨rfl, hne⟩)

/-! ## The frame registers after a successful BUILD (R106) -/

/-- The low `L` bits of a register, taken as a sequence and shown right-aligned, are the register masked. -/
theorem seqWord_seqMsb_eq_and (v : Word) {L : Nat} (hL : L ≤ 32) :
    seqWord (seqMsb v L) = v &&& BitVec.ofNat 32 (2 ^ L - 1) := by
  apply BitVec.eq_of_getLsbD_eq
  intro k hk
  rw [seqWord_seqMsb_getLsbD v L hL, BitVec.getLsbD_and, BitVec.getLsbD_ofNat, Nat.testBit_two_pow_sub_one]
  simp [hk, Bool.and_comm]

theorem seqWord_arbitrationSeq (i : Inputs) :
    seqWord (arbitrationSeq i (expectedArbLen i.variant))
      = if i.variant then i.arb &&& 0x03FFFFFF else i.arb &&& 0x000007FF := by
  cases i.variant
  · exact seqWord_seqMsb_eq_and i.arb (L := 11) (by decide)
  · exact seqWord_seqMsb_eq_and i.arb (L := 26) (by decide)

/-- The command bits stand behind the extension bit and the reserved bit (R103). -/
theorem completeCommandField_getElem?_command (i : Inputs) {j : Nat} (hj : j < 4) :
    (completeCommandField i)[2 + j]? = some (i.cmd.getLsbD (3 - j)) := by
  rw [Nat.add_comm]
  exact seqMsb_getElem? i.cmd 4 j hj

/-- FRAME_CCF of an assembled frame: the variant at 5, 0 at 4, the command bits below. -/
theorem seqWord_completeCommandField (i : Inputs) :
    (seqWord (completeCommandField i)).extractLsb' 0 4 = i.cmd.extractLsb' 0 4
      ∧ (seqWord (completeCommandField i)).getLsbD 5 = i.variant
      ∧ (seqWord (completeCommandField i)).getLsbD 4 = false := by
  obtain ⟨hext, hrsvd, hcmd, -⟩ := seqWord_ccf_bits (assembleFrame_wf i)
  refine ⟨?_, Option.some.inj hext, hrsvd⟩
  apply BitVec.eq_of_getLsbD_eq
  intro k hk
  have hj : 3 - k < 4 := by omega
  have hbit : (seqWord (completeCommandField i)).getLsbD (3 - (3 - k)) = i.cmd.getLsbD (3 - (3 - k)) :=
    Option.some.inj ((hcmd (3 - k) hj).trans (completeCommandField_getElem?_command i hj))
  rw [show 3 - (3 - k) = k by omega] at hbit
  rw [BitVec.getLsbD_extractLsb', BitVec.getLsbD_extractLsb', Nat.zero_add, hbit]

/-- Settles O23: the frame registers show the assembled frame, each field of which is an input. -/
theorem builtFrameReadsBackInputs : Obligations.BuiltFrameReadsBackInputs := by
  intro u s harb hcmd hdata
  have hbuild := build_of_checkWidths_none ((checkWidths_eq_none s.inp).2 ⟨harb, hcmd, hdata⟩)
  have hframe : (build s).frame = some (assembleFrame s.inp) := by rw [hbuild]; rfl
  obtain ⟨hvariant, harbShown, hccf, hbytes⟩ := readReg_frame_some hframe
  refine ⟨build s, exec_build u s, ?_⟩
  have hccfWord : readWindow 0x48 (build s) = seqWord (completeCommandField s.inp) :=
    (readWindow_regOffset .frameCcf _).trans hccf
  rw [hccfWord]
  obtain ⟨hcmdBits, hextBit, hrsvdBit⟩ := seqWord_completeCommandField s.inp
  exact ⟨(readWindow_regOffset .frameVariant _).trans hvariant,
    ((readWindow_regOffset .frameArb _).trans harbShown).trans (seqWord_arbitrationSeq s.inp),
    hcmdBits, hextBit, hrsvdBit, fun k => (readWindow_regOffset (.frameData k) _).trans (hbytes k)⟩

end Sys2Proof.Machine
end

/-! # The engine's laws

The CRC-15 engine is additive and, for an odd polynomial, injective (spec/41_checksum.md R136); the obligations settled
from this. -/
section
namespace Sys2Proof.Machine

/-- The engine is additive in its register and its input together. -/
theorem foldl_crcStep_xor (p : Crc) {s t : BitSeq} (h : s.length = t.length) (c d : Crc) :
    (List.zipWith Bool.xor s t).foldl (crcStep p) (c ^^^ d) = s.foldl (crcStep p) c ^^^ t.foldl (crcStep p) d := by
  induction s generalizing t c d with
  | nil => simp [List.eq_nil_of_length_eq_zero h.symm]
  | cons a s ih =>
    cases t with
    | nil => cases h
    | cons b t =>
      rw [List.zipWith_cons_cons, List.foldl_cons, crcStep_xor]
      exact ih (Nat.succ.inj h) _ _

/-- Settles O29: the engine is additive, and its initial register 0 is the sum of itself with itself. -/
theorem crcIsLinear : Obligations.CrcIsLinear := by
  intro cfg s t hinit hlen
  have hsum := foldl_crcStep_xor cfg.crcPoly hlen cfg.crcInit cfg.crcInit
  have hzero : cfg.crcInit ^^^ cfg.crcInit = cfg.crcInit := by rw [hinit]; rfl
  rwa [hzero] at hsum

/-- The bit that leaves the register decides, with the input, whether the polynomial's constant term is added. -/
theorem crcStep_getLsbD_zero {p : Crc} (hp : p.getLsbD 0 = true) (c : Crc) (b : Bit) :
    (crcStep p c b).getLsbD 0 = Bool.xor b (c.getLsbD 14) := by
  rw [crcStep_eq, BitVec.getLsbD_xor]
  cases Bool.xor b (c.getLsbD 14) <;> simp [hp]

theorem getLsbD_shiftLeft_one_succ (c : Crc) {k : Nat} (hk : k < 14) : (c <<< 1).getLsbD (k + 1) = c.getLsbD k := by
  rw [BitVec.getLsbD_shiftLeft, decide_eq_true (by omega : k + 1 < 15)]
  simp

/-- The shift loses bit 14 and no other. -/
theorem eq_of_shiftLeft_one_eq {c d : Crc} (h : c <<< 1 = d <<< 1) (htop : c.getLsbD 14 = d.getLsbD 14) :
    c = d := by
  apply BitVec.eq_of_getLsbD_eq
  intro k hk
  by_cases hk14 : k = 14
  · rw [hk14, htop]
  · have hlow : k < 14 := by omega
    rw [← getLsbD_shiftLeft_one_succ c hlow, h, getLsbD_shiftLeft_one_succ d hlow]

/-- With an odd polynomial no turn brings two registers together: bit 0 tells what left them. -/
theorem crcStep_injective {p : Crc} (hp : p.getLsbD 0 = true) (b : Bit) :
    Function.Injective fun c => crcStep p c b := by
  intro c d (h : crcStep p c b = crcStep p d b)
  have htop : c.getLsbD 14 = d.getLsbD 14 := by
    have hbit := crcStep_getLsbD_zero hp c b
    rw [h, crcStep_getLsbD_zero hp d b] at hbit
    exact (Bool.xor_right_inj.1 hbit).symm
  rw [crcStep_eq, crcStep_eq, htop] at h
  exact eq_of_shiftLeft_one_eq ((BitVec.xor_left_inj _).1 h) htop

theorem foldl_crcStep_injective {p : Crc} (hp : p.getLsbD 0 = true) (s : BitSeq) :
    Function.Injective fun c => s.foldl (crcStep p) c := by
  induction s with
  | nil => exact Function.injective_id
  | cons b s ih => exact ih.comp (crcStep_injective hp b)

/-- With an odd polynomial a turn tells the two values of the input bit apart. -/
theorem crcStep_not_ne {p : Crc} (hp : p.getLsbD 0 = true) (c : Crc) (b : Bit) :
    crcStep p c (!b) ≠ crcStep p c b := by
  intro h
  have hbit := crcStep_getLsbD_zero hp c b
  rw [← h, crcStep_getLsbD_zero hp c (!b)] at hbit
  exact Bool.not_ne_self b (Bool.xor_left_inj.1 hbit)

/-- The changed element gives another register, and the elements after it keep the two registers apart. -/
theorem crc15Bits_not_ne {cfg : Config} (hodd : cfg.crcPoly.getLsbD 0 = true) (l : BitSeq) (b : Bit) (r : BitSeq) :
    crc15Bits cfg (l ++ (!b) :: r) ≠ crc15Bits cfg (l ++ b :: r) := by
  rw [crc15Bits_append, crc15Bits_append]
  exact fun h => crcStep_not_ne hodd _ b (foldl_crcStep_injective hodd r h)

/-- Settles O30: 0x4599 is odd. -/
theorem singleBitChangeChangesCrc : Obligations.SingleBitChangeChangesCrc := by
  intro cfg s i hi hpoly
  have hodd : cfg.crcPoly.getLsbD 0 = true := by rw [hpoly]; rfl
  have hset : s.set i (!s[i]) = s.take i ++ (!s[i]) :: s.drop (i + 1) :=
    List.set_eq_take_append_cons_drop.trans (if_pos hi)
  have hsplit : s.take i ++ s[i] :: s.drop (i + 1) = s := by simp
  have hne := crc15Bits_not_ne hodd (s.take i) s[i] (s.drop (i + 1))
  rwa [← hset, hsplit] at hne

/-- Settles O31: zeros leave the register 0, and a last one adds the polynomial to it. -/
theorem crcOfZerosAndOfLastOne : Obligations.CrcOfZerosAndOfLastOne := by
  intro cfg n hinit
  have hzeros := crc15Bits_replicate_false cfg hinit n
  refine ⟨hzeros, ?_⟩
  rw [crc15Bits_snoc, hzeros, crcStep_eq]
  simp

end Sys2Proof.Machine
end

/-! # Operations, reads and writes repeated, and the table of registers

What CHECKSUM, SERIALIZE, CLEAR and register writes do when repeated (spec/20_memory.md R56), the staging registers and
reads (R52, R53), and the offsets of spec/10_state.md R23; the obligations settled from this. -/
section
namespace Sys2Proof.Machine

/-! ## Operations repeated -/

theorem checksum_checksum {s : State} {F : Frame} (h : s.frame = some F) : checksum (checksum s) = checksum s := by
  rw [checksum_of_frame_some ((checksum_frame s).trans h), checksum_of_frame_some h]

theorem serialize_serialize {s : State} {F : Frame} (h : s.frame = some F) :
    serialize (serialize s) = serialize s := by
  rw [serialize_of_frame_some ((serialize_frame s).trans h), serialize_of_frame_some h]

/-- Settles O34: the results of the three operations name the frame and the parameters only. -/
theorem resultsDependOnFrameOnly : Obligations.ResultsDependOnFrameOnly := by
  intro u u' s s' F hs hs' hconfig
  refine ⟨⟨checksum s, checksum s', exec_checksum u s, exec_checksum u' s', ?_, ?_, ?_⟩,
    ⟨serialize s, serialize s', exec_serialize u s, exec_serialize u' s', ?_, ?_, ?_, ?_⟩,
    ⟨clearFrame s, clearFrame s', exec_clear u s, exec_clear u' s', rfl, ?_⟩⟩
  · rw [checksum_of_frame_some hs, checksum_of_frame_some hs', hconfig]
  · rw [checksum_of_frame_some hs, checksum_of_frame_some hs']
  · rw [exec_checksum, checksum_checksum hs]
  · rw [serialize_of_frame_some hs, serialize_of_frame_some hs', hconfig]
  · rw [serialize_of_frame_some hs, serialize_of_frame_some hs', hconfig]
  · rw [serialize_of_frame_some hs, serialize_of_frame_some hs']
  · rw [exec_serialize, serialize_serialize hs]
  · rw [exec_clear, clearFrame_clearFrame]

/-! ## Writes repeated -/

/-- A store sets a field whatever the field held. -/
theorem storeInput_storeInput (r : Reg) (v : Word) (i : Inputs) :
    storeInput r v (storeInput r v i) = storeInput r v i := by
  cases r with
  | dataIn k => simp [storeInput]
  | _ => rfl

theorem storeReg_storeReg (r : Reg) (v : Word) (s : State) : storeReg r v (storeReg r v s) = storeReg r v s :=
  congrArg s.setInp (storeInput_storeInput r v s.inp)

/-- A write of any aligned offset but CMD's, repeated, does nothing further (R56). -/
theorem memWrite_idempotent {off : Byte} (ha : off.toNat % 4 = 0) (hoff : off ≠ 0) (v : Word) (s : State) :
    ∃ t, memWrite off v s = .next t ∧ memWrite off v t = .next t := by
  cases hr : regAt off with
  | none => exact ⟨s, memWrite_reserved hr v s, memWrite_reserved hr v s⟩
  | some r =>
    obtain ⟨-, hcmd, -⟩ := regAt_kind ha hr
    have hstore := memWrite_of_ne_cmd hr (mt hcmd.1 hoff) v
    exact ⟨storeReg r v s, hstore s, by rw [hstore, storeReg_storeReg]⟩

/-- CHECKSUM after a successful BUILD holds a checksum, and the same BUILD again drops it (spec/40_build.md R104). -/
theorem crc_of_build_checksum_build {s : State} (h : checkWidths s.inp = none) :
    (checksum (build s)).crc.isSome = true ∧ (build (checksum (build s))).crc = none := by
  have hframe : (build s).frame = some (assembleFrame s.inp) := by
    rw [build_of_checkWidths_none h]
    rfl
  obtain ⟨hbuildInp, -⟩ := (Operated.built (s := s)).frame
  obtain ⟨hchecksumInp, -⟩ := (Operated.checksummed (s := build s)).frame
  have hagain : checkWidths (checksum (build s)).inp = none := by rw [hchecksumInp, hbuildInp, h]
  constructor
  · rw [checksum_of_frame_some hframe]
    rfl
  · rw [build_of_checkWidths_none hagain]
    rfl

/-- Reset, with the lengths of a SHORT frame staged. -/
def shortZeroState : State := State.reset.setInp { Inputs.reset with arbLen := 11, cmdLen := 4, dataLen := 8 }

theorem checkWidths_shortZeroState : checkWidths shortZeroState.inp = none := by decide

/-- Bit 1 of STATUS is CRC_VALID. -/
theorem readWindow_status_crcValid (s : State) : (readWindow 0x04 s).getLsbD 1 = s.crc.isSome := by
  obtain ⟨hfields, -⟩ := statusRegisterFields
  obtain ⟨-, hcrcValid, -⟩ := hfields s
  exact hcrcValid

/-- Settles O52: a store is repeated without effect; the lengths of a SHORT frame make the two BUILDs succeed. -/
theorem registerWritesAreIdempotent : Obligations.RegisterWritesAreIdempotent := by
  refine ⟨fun off v s ha hoff => ?_, ?_⟩
  · simpa only [exec_wr_aligned ha] using memWrite_idempotent ha hoff v s
  · obtain ⟨hvalid, hdropped⟩ := crc_of_build_checksum_build checkWidths_shortZeroState
    refine ⟨shortZeroState, _, _, _, exec_wr_cmd 1 _, exec_wr_cmd 2 _, exec_wr_cmd 1 _,
      (readWindow_status_crcValid _).trans hvalid, (readWindow_status_crcValid _).trans ?_⟩
    exact congrArg Option.isSome hdropped

/-! ## The registers of the window -/

theorem regOffset_aligned (r : Reg) : (regOffset r).toNat % 4 = 0 := by
  cases r with
  | dataIn k => revert k; decide
  | frameData k => revert k; decide
  | serW j => revert j; decide
  | _ => rfl

/-- A WR of a register other than CMD is the store of that register (R52). -/
theorem exec_wr_regOffset {r : Reg} (hr : r ≠ .cmd) (v : Word) (s : State) :
    exec (.wr (regOffset r) v) s = .next (storeReg r v s) :=
  (exec_wr_aligned (regOffset_aligned r) v s).trans (memWrite_of_ne_cmd (regAt_regOffset r) hr v s)

/-- Settles O42: each WR is the store of its register, and each read shows that register. -/
theorem stagingRegistersStoreAndRead : Obligations.StagingRegistersStoreAndRead := by
  intro v s
  have hwr {r : Reg} (hr : isStaging r = true) : exec (.wr (regOffset r) v) s = .next (storeReg r v s) :=
    exec_wr_regOffset (by rintro rfl; cases hr) v s
  have hrd (r : Reg) : readWindow (regOffset r) s = readReg r s := readWindow_regOffset r s
  exact ⟨hwr (r := .variantIn) rfl, hrd .variantIn, hwr (r := .arbLenIn) rfl, hrd .arbLenIn,
    hwr (r := .arbIn) rfl, hrd .arbIn, hwr (r := .cmdLenIn) rfl, hrd .cmdLenIn, hwr (r := .cmdIn) rfl, hrd .cmdIn,
    hwr (r := .dataLenIn) rfl, hrd .dataLenIn, fun k => ⟨hwr (r := .dataIn k) rfl, hrd (.dataIn k)⟩⟩

/-- Settles O44: a read records the register's value, and the record is no part of what is read. -/
theorem readHasNoSideEffect : Obligations.ReadHasNoSideEffect := by
  intro off d d' s ha
  refine ⟨exec_rd_aligned ha d s, (exec_rd_aligned ha d' (s.recordRead (readWindow off s))).trans ?_⟩
  rw [readWindow_recordRead, State.recordRead, State.recordRead, List.append_assoc]
  rfl

/-- Settles O48: the offset column and the slot table name each other's entries. -/
theorem windowTableIsExact : Obligations.WindowTableIsExact :=
  ⟨fun r => ⟨regOffset_aligned r, regAt_regOffset r⟩, fun _ _ ha hr => eq_regOffset_of_regAt ha hr,
    fun _ ha => regAt_eq_none_iff ha⟩

end Sys2Proof.Machine
end
